-- ==== Sys2Proof/Word.lean ====
section
/-! DEFINITION. The widths of the block's values (spec 00_scope R9, 10_state R20, R23, R24; 30_encoding R92). All values are unsigned. -/

namespace Sys2Proof

/-- 8 bits: a general register, a timer, a memory byte (R20, R27, R29). -/
abbrev Byte := BitVec 8

/-- 16 bits: I, PC, a return address, an instruction word (R23, R24, R25, R92). -/
abbrev Word := BitVec 16

/-- A register number, the fields x and y (R92). -/
abbrev Reg := BitVec 4

/-- A 4-bit count, the field n (R92, R94). -/
abbrev Nib := BitVec 4

/-- The 12-bit address immediate nnn (R92). -/
abbrev Addr12 := BitVec 12

/-- A key code, 0x0 to 0xF (R31, R42). -/
abbrev Key := BitVec 4

end Sys2Proof
end

