-- ==== Sys2Proof/Syntax.lean ====
section
/-! DEFINITION. The 35 instructions of spec 30_encoding R98 and spec/opcode_table.json, one constructor per row.
Register numbers x, y, the immediates nn and nnn and the sprite height n are the fields of R92. -/

namespace Sys2Proof

inductive Instr where
  /-- `SYS nnn`, word 0nnn but 00E0 and 00EE (R130). -/
  | sys (nnn : Addr12)
  /-- `CLS`, word 00E0 (R212). -/
  | cls
  /-- `RET`, word 00EE (R124). -/
  | ret
  /-- `JP nnn`, word 1nnn (R122). -/
  | jp (nnn : Addr12)
  /-- `CALL nnn`, word 2nnn (R123). -/
  | call (nnn : Addr12)
  /-- `SE Vx, nn`, word 3xnn (R125). -/
  | seImm (x : Reg) (nn : Byte)
  /-- `SNE Vx, nn`, word 4xnn (R126). -/
  | sneImm (x : Reg) (nn : Byte)
  /-- `SE Vx, Vy`, word 5xyN (R127). -/
  | seReg (x y : Reg)
  /-- `LD Vx, nn`, word 6xnn (R152). -/
  | ldImm (x : Reg) (nn : Byte)
  /-- `ADD Vx, nn`, word 7xnn (R153). -/
  | addImm (x : Reg) (nn : Byte)
  /-- `LD Vx, Vy`, word 8xy0 (R154). -/
  | ldReg (x y : Reg)
  /-- `OR Vx, Vy`, word 8xy1 (R155). -/
  | orReg (x y : Reg)
  /-- `AND Vx, Vy`, word 8xy2 (R156). -/
  | andReg (x y : Reg)
  /-- `XOR Vx, Vy`, word 8xy3 (R157). -/
  | xorReg (x y : Reg)
  /-- `ADD Vx, Vy`, word 8xy4 (R158). -/
  | addReg (x y : Reg)
  /-- `SUB Vx, Vy`, word 8xy5 (R159). -/
  | subReg (x y : Reg)
  /-- `SHR Vx, Vy`, word 8xy6 (R160). -/
  | shr (x y : Reg)
  /-- `SUBN Vx, Vy`, word 8xy7 (R161). -/
  | subn (x y : Reg)
  /-- `SHL Vx, Vy`, word 8xyE (R162). -/
  | shl (x y : Reg)
  /-- `SNE Vx, Vy`, word 9xyN (R128). -/
  | sneReg (x y : Reg)
  /-- `LD I, nnn`, word Annn (R180). -/
  | ldI (nnn : Addr12)
  /-- `JP V0, nnn`, word Bnnn (R129). -/
  | jpV0 (nnn : Addr12)
  /-- `RND Vx, nn`, word Cxnn (R163). -/
  | rnd (x : Reg) (nn : Byte)
  /-- `DRW Vx, Vy, n`, word Dxyn (R213). -/
  | drw (x y : Reg) (n : Nib)
  /-- `SKP Vx`, word Ex9E (R248). -/
  | skp (x : Reg)
  /-- `SKNP Vx`, word ExA1 (R249). -/
  | sknp (x : Reg)
  /-- `LD Vx, DT`, word Fx07 (R252). -/
  | ldVxDt (x : Reg)
  /-- `LD Vx, K`, word Fx0A (R251). -/
  | ldVxK (x : Reg)
  /-- `LD DT, Vx`, word Fx15 (R253). -/
  | ldDtVx (x : Reg)
  /-- `LD ST, Vx`, word Fx18 (R254). -/
  | ldStVx (x : Reg)
  /-- `ADD I, Vx`, word Fx1E (R181). -/
  | addIVx (x : Reg)
  /-- `LD F, Vx`, word Fx29 (R182). -/
  | ldFVx (x : Reg)
  /-- `LD B, Vx`, word Fx33 (R183). -/
  | ldBVx (x : Reg)
  /-- `LD [I], Vx`, word Fx55 (R184). -/
  | ldMemVx (x : Reg)
  /-- `LD Vx, [I]`, word Fx65 (R185). -/
  | ldVxMem (x : Reg)
  deriving DecidableEq, Repr

end Sys2Proof
end

