-- ==== Sys2Proof/Decode.lean ====
section
/-! DEFINITION. Decoding and encoding of instruction words (spec 20_memory R66; 30_encoding R92-R98). The decoder is total on
every word and on every list of bytes; a word that is no instruction is answered by name, `unmatched` (R97). -/

namespace Sys2Proof

/-- What decoding a word gives: an instruction, or the structured value of an unmatched pattern (R95, R97). -/
inductive Decoded where
  | instr (i : Instr)
  | unmatched (w : Word)
  deriving DecidableEq, Repr

/-! ### Fields (R92) -/

/-- `op = w[15:12]`. -/
def fieldOp (w : Word) : Nib := w.extractLsb' 12 4

/-- `x = w[11:8]`. -/
def fieldX (w : Word) : Reg := w.extractLsb' 8 4

/-- `y = w[7:4]`. -/
def fieldY (w : Word) : Reg := w.extractLsb' 4 4

/-- `n = w[3:0]`. -/
def fieldN (w : Word) : Nib := w.extractLsb' 0 4

/-- `nn = w[7:0]`. -/
def fieldNN (w : Word) : Byte := w.extractLsb' 0 8

/-- `nnn = w[11:0]`. -/
def fieldNNN (w : Word) : Addr12 := w.extractLsb' 0 12

/-! ### Decode (R95) -/

/-- Family 0 (decision D10: the whole word is compared). -/
def decodeFamily0 (w : Word) : Decoded :=
  if w = 0x00E0#16 then .instr .cls
  else if w = 0x00EE#16 then .instr .ret
  else .instr (.sys (fieldNNN w))

/-- Family 8: the low nibble selects the operation. -/
def decodeFamily8 (w : Word) : Decoded :=
  let n := fieldN w
  if n = 0x0#4 then .instr (.ldReg (fieldX w) (fieldY w))
  else if n = 0x1#4 then .instr (.orReg (fieldX w) (fieldY w))
  else if n = 0x2#4 then .instr (.andReg (fieldX w) (fieldY w))
  else if n = 0x3#4 then .instr (.xorReg (fieldX w) (fieldY w))
  else if n = 0x4#4 then .instr (.addReg (fieldX w) (fieldY w))
  else if n = 0x5#4 then .instr (.subReg (fieldX w) (fieldY w))
  else if n = 0x6#4 then .instr (.shr (fieldX w) (fieldY w))
  else if n = 0x7#4 then .instr (.subn (fieldX w) (fieldY w))
  else if n = 0xE#4 then .instr (.shl (fieldX w) (fieldY w))
  else .unmatched w

/-- Family E: the low byte selects the operation. -/
def decodeFamilyE (w : Word) : Decoded :=
  let nn := fieldNN w
  if nn = 0x9E#8 then .instr (.skp (fieldX w))
  else if nn = 0xA1#8 then .instr (.sknp (fieldX w))
  else .unmatched w

/-- Family F: the low byte selects the operation. -/
def decodeFamilyF (w : Word) : Decoded :=
  let nn := fieldNN w
  if nn = 0x07#8 then .instr (.ldVxDt (fieldX w))
  else if nn = 0x0A#8 then .instr (.ldVxK (fieldX w))
  else if nn = 0x15#8 then .instr (.ldDtVx (fieldX w))
  else if nn = 0x18#8 then .instr (.ldStVx (fieldX w))
  else if nn = 0x1E#8 then .instr (.addIVx (fieldX w))
  else if nn = 0x29#8 then .instr (.ldFVx (fieldX w))
  else if nn = 0x33#8 then .instr (.ldBVx (fieldX w))
  else if nn = 0x55#8 then .instr (.ldMemVx (fieldX w))
  else if nn = 0x65#8 then .instr (.ldVxMem (fieldX w))
  else .unmatched w

/-- The decode function of R95, total on every 16-bit word. Families 5 and 9 do not examine the low nibble (decision D9).
R102's refusal of four instructions depends on the configuration and stands in their meanings. -/
def decode (w : Word) : Decoded :=
  let op := fieldOp w
  if op = 0x0#4 then decodeFamily0 w
  else if op = 0x1#4 then .instr (.jp (fieldNNN w))
  else if op = 0x2#4 then .instr (.call (fieldNNN w))
  else if op = 0x3#4 then .instr (.seImm (fieldX w) (fieldNN w))
  else if op = 0x4#4 then .instr (.sneImm (fieldX w) (fieldNN w))
  else if op = 0x5#4 then .instr (.seReg (fieldX w) (fieldY w))
  else if op = 0x6#4 then .instr (.ldImm (fieldX w) (fieldNN w))
  else if op = 0x7#4 then .instr (.addImm (fieldX w) (fieldNN w))
  else if op = 0x8#4 then decodeFamily8 w
  else if op = 0x9#4 then .instr (.sneReg (fieldX w) (fieldY w))
  else if op = 0xA#4 then .instr (.ldI (fieldNNN w))
  else if op = 0xB#4 then .instr (.jpV0 (fieldNNN w))
  else if op = 0xC#4 then .instr (.rnd (fieldX w) (fieldNN w))
  else if op = 0xD#4 then .instr (.drw (fieldX w) (fieldY w) (fieldN w))
  else if op = 0xE#4 then decodeFamilyE w
  else decodeFamilyF w

/-! ### Bytes and words (R66) -/

/-- Big-endian combination: the byte at the lower address is bits 15:8. -/
def wordOfBytes (hi lo : Byte) : Word := hi ++ lo

/-- The byte at the lower address of a word, bits 15:8. -/
def highByte (w : Word) : Byte := w.extractLsb' 8 8

/-- The byte at the higher address of a word, bits 7:0. -/
def lowByte (w : Word) : Byte := w.extractLsb' 0 8

/-- Decode the first instruction of a list of bytes and give the rest; `none` where fewer than two bytes are left, since every
instruction is exactly 2 bytes (R100). -/
def decodeBytes : List Byte → Option (Decoded × List Byte)
  | hi :: lo :: rest => some (decode (wordOfBytes hi lo), rest)
  | [_] => none
  | [] => none

/-! ### Encode (R93, R98) -/

/-- Format FA: `oooo aaaa aaaa aaaa`. -/
def formatFA (op : Nib) (nnn : Addr12) : Word := op ++ nnn

/-- Format FXNN: `oooo xxxx iiii iiii`. -/
def formatFXNN (op : Nib) (x : Reg) (nn : Byte) : Word := (op ++ x) ++ nn

/-- Formats FXY and FXYN: `oooo xxxx yyyy ssss`. -/
def formatFXYN (op : Nib) (x y : Reg) (n : Nib) : Word := ((op ++ x) ++ y) ++ n

/-- Format FX: `oooo xxxx ssss ssss`. -/
def formatFX (op : Nib) (x : Reg) (sel : Byte) : Word := (op ++ x) ++ sel

/-- The word of an instruction, from R98's table. The low nibble that families 5 and 9 do not decode is written as 0, the way
R98 writes them (`5xy0`, `9xy0`). -/
def encode : Instr → Word
  | .sys nnn => formatFA 0x0#4 nnn
  | .cls => 0x00E0#16
  | .ret => 0x00EE#16
  | .jp nnn => formatFA 0x1#4 nnn
  | .call nnn => formatFA 0x2#4 nnn
  | .seImm x nn => formatFXNN 0x3#4 x nn
  | .sneImm x nn => formatFXNN 0x4#4 x nn
  | .seReg x y => formatFXYN 0x5#4 x y 0x0#4
  | .ldImm x nn => formatFXNN 0x6#4 x nn
  | .addImm x nn => formatFXNN 0x7#4 x nn
  | .ldReg x y => formatFXYN 0x8#4 x y 0x0#4
  | .orReg x y => formatFXYN 0x8#4 x y 0x1#4
  | .andReg x y => formatFXYN 0x8#4 x y 0x2#4
  | .xorReg x y => formatFXYN 0x8#4 x y 0x3#4
  | .addReg x y => formatFXYN 0x8#4 x y 0x4#4
  | .subReg x y => formatFXYN 0x8#4 x y 0x5#4
  | .shr x y => formatFXYN 0x8#4 x y 0x6#4
  | .subn x y => formatFXYN 0x8#4 x y 0x7#4
  | .shl x y => formatFXYN 0x8#4 x y 0xE#4
  | .sneReg x y => formatFXYN 0x9#4 x y 0x0#4
  | .ldI nnn => formatFA 0xA#4 nnn
  | .jpV0 nnn => formatFA 0xB#4 nnn
  | .rnd x nn => formatFXNN 0xC#4 x nn
  | .drw x y n => formatFXYN 0xD#4 x y n
  | .skp x => formatFX 0xE#4 x 0x9E#8
  | .sknp x => formatFX 0xE#4 x 0xA1#8
  | .ldVxDt x => formatFX 0xF#4 x 0x07#8
  | .ldVxK x => formatFX 0xF#4 x 0x0A#8
  | .ldDtVx x => formatFX 0xF#4 x 0x15#8
  | .ldStVx x => formatFX 0xF#4 x 0x18#8
  | .addIVx x => formatFX 0xF#4 x 0x1E#8
  | .ldFVx x => formatFX 0xF#4 x 0x29#8
  | .ldBVx x => formatFX 0xF#4 x 0x33#8
  | .ldMemVx x => formatFX 0xF#4 x 0x55#8
  | .ldVxMem x => formatFX 0xF#4 x 0x65#8

/-- The two bytes of an instruction as memory holds them, high byte first (R66). -/
def encodeBytes (i : Instr) : List Byte := [highByte (encode i), lowByte (encode i)]

/-! ### The host's view of a table row -/

/-- The word whose bits `nbits-1 .. 0` are those of `w` and whose other bits are 0. Every instruction is one word, so the bits
are numbered as in R9: bit 0 the least significant. -/
def tableWord (nbits w : Nat) : Word := BitVec.ofNat 16 (w % 2 ^ nbits)

/-- What the decoder reads from the instruction with these bits, laid out as memory holds it; `none` for an unmatched word. -/
def decodeTableWord (nbits w : Nat) : Option Instr :=
  match decodeBytes [highByte (tableWord nbits w), lowByte (tableWord nbits w)] with
  | some (.instr i, _) => some i
  | some (.unmatched _, _) => none
  | none => none

end Sys2Proof
end

