-- ==== Sys2Proof/Config.lean ====
section
/-! DEFINITION. The parameters of spec 00_scope R7 that change what the block does, and the free 8-bit draws.
R8: a model takes every flag as an argument; here a State carries them in a field no step writes. -/

namespace Sys2Proof

/-- `stack_overflow` of R7 (40_control_flow R131, decision D3). -/
inductive StackOverflow where
  | fault
  | unbounded
  deriving DecidableEq, Repr

/-- `empty_return` of R7 (R132, decision D4). -/
inductive EmptyReturn where
  | pcZero
  | fault
  deriving DecidableEq, Repr

/-- `logic_vf` of R7 (41_alu R151, decision D6). -/
inductive LogicVf where
  | zero
  | preserve
  | any
  deriving DecidableEq, Repr

/-- One setting of the open parameters of R7. `fontBase` admits exactly the values with
`FONT_BASE + 80 <= 0x200`, that is 0 to 432 (R7, decision D12). -/
structure Config where
  stackOverflow : StackOverflow
  emptyReturn   : EmptyReturn
  ldstIncI      : Bool
  logicVf       : LogicVf
  admitGkOps    : Bool
  fontBase      : Fin 433
  deriving DecidableEq, Repr

/-- FREE VALUE (log entry 3): the n-th `draw8()` of R151 and R163, "a free 8-bit input of this step, under no law". It
has no body, so nothing can be proved of its value; the step numbers the draws with `State.draws`. -/
opaque Config.draw8 : Nat → Byte

end Sys2Proof
end

