-- ==== Sys2Proof/Machine/Params.lean ====
section
/-! DEFINITION. The numbers of spec 00_scope R7, the font of 42_index_memory R187, the reference configuration, and the reset
values of 70_reset_and_hazards R311, each a definition of its own. -/

namespace Sys2Proof.Machine

/-- `MEM_SIZE` (R7, R29). -/
def memSize : Nat := 4096

/-- `PROG_BASE` (R7, R70). -/
def progBase : Nat := 0x200

/-- `PROG_MAX` (R7, R315). -/
def progMax : Nat := 3584

/-- `STACK_DEPTH` (R7, R25). -/
def stackDepth : Nat := 16

/-- The reference configuration: "the first value of every row" of R7's table (log entry 2). -/
def referenceConfig : Config where
  stackOverflow := .fault
  emptyReturn   := .pcZero
  ldstIncI      := true
  logicVf       := .zero
  admitGkOps    := true
  fontBase      := 0x050

/-- Glyphs 0 to 3 of R187, five bytes each, top row first. -/
def font03 : List Byte :=
  [0xF0#8, 0x90#8, 0x90#8, 0x90#8, 0xF0#8, 0x20#8, 0x60#8, 0x20#8, 0x20#8, 0x70#8,
   0xF0#8, 0x10#8, 0xF0#8, 0x80#8, 0xF0#8, 0xF0#8, 0x10#8, 0xF0#8, 0x10#8, 0xF0#8]

/-- Glyphs 4 to 7 of R187. -/
def font47 : List Byte :=
  [0x90#8, 0x90#8, 0xF0#8, 0x10#8, 0x10#8, 0xF0#8, 0x80#8, 0xF0#8, 0x10#8, 0xF0#8,
   0xF0#8, 0x80#8, 0xF0#8, 0x90#8, 0xF0#8, 0xF0#8, 0x10#8, 0x20#8, 0x40#8, 0x40#8]

/-- Glyphs 8 to B of R187. -/
def font8B : List Byte :=
  [0xF0#8, 0x90#8, 0xF0#8, 0x90#8, 0xF0#8, 0xF0#8, 0x90#8, 0xF0#8, 0x10#8, 0xF0#8,
   0xF0#8, 0x90#8, 0xF0#8, 0x90#8, 0x90#8, 0xE0#8, 0x90#8, 0xE0#8, 0x90#8, 0xE0#8]

/-- Glyphs C to F of R187. -/
def fontCF : List Byte :=
  [0xF0#8, 0x80#8, 0x80#8, 0x80#8, 0xF0#8, 0xE0#8, 0x90#8, 0x90#8, 0x90#8, 0xE0#8,
   0xF0#8, 0x80#8, 0xF0#8, 0x80#8, 0xF0#8, 0xF0#8, 0x80#8, 0xF0#8, 0x80#8, 0x80#8]

/-- The 80 bytes of the font, glyph d at offset 5*d (R187). -/
def font : List Byte := font03 ++ font47 ++ font8B ++ fontCF

/-- The byte memory holds at address `a` after reset: zero, then the font at `FONT_BASE` when `admit_gk_ops` (R311, R314).
This is what an address that no cell lists reads as (log entry 8). -/
def resetByte (c : Config) (a : Nat) : Byte :=
  if c.admitGkOps = true ∧ c.fontBase.val ≤ a ∧ a < c.fontBase.val + 80 then
    (font[a - c.fontBase.val]?).getD 0x00#8
  else 0x00#8

/-- `V[0]`..`V[15]` after reset (R311). -/
def resetV : Byte := 0x00#8

/-- `I` after reset (R311). -/
def resetI : Word := 0x0000#16

/-- `PC` after reset, the reset vector (R70, R311). -/
def resetPc : Word := 0x0200#16

/-- `DT` and `ST` after reset (R311). -/
def resetTimer : Byte := 0x00#8

/-- Every pixel after reset (R218, R311). -/
def resetPixel : Bool := false

/-- `Key[0]`..`Key[15]` after reset: released (R311). -/
def resetKey : Bool := false

end Sys2Proof.Machine
end

