-- ==== Sys2Proof/Machine/State.lean ====
section
/-! DEFINITION. The state of the block (spec 10_state R37, R35), the reasons a transaction can stop, and the state after reset
(70_reset_and_hazards R311). State is plain data. -/

namespace Sys2Proof.Machine

/-- The fatal conditions of 60_exceptions R280, each with the info it records. -/
inductive Fatal where
  /-- Code 1, `MEM_OUT_OF_RANGE`: the (addr, len) of the failing access. -/
  | memOutOfRange (addr len : Nat)
  /-- Code 2, `INVALID_KEY`: the key value. -/
  | invalidKey (key : Byte)
  /-- Code 3, `STACK_OVERFLOW`: (SP, pushed address). -/
  | stackOverflow (sp : Nat) (pushed : Word)
  /-- Code 4, `STACK_UNDERFLOW`: no info. -/
  | stackUnderflow
  deriving DecidableEq, Repr

/-- `Run` of R33: `Running`, or `Faulted(code, info, pc)` with code and info held by `Fatal`. -/
inductive Run where
  | running
  | faulted (cond : Fatal) (pc : Word)
  deriving DecidableEq, Repr

/-- A record (word, pc) of `DiagOut` (R34, R285), and of the refusal mark (R280, R287). -/
structure Diag where
  word : Word
  pc   : Word
  deriving DecidableEq, Repr

/-- `FB[x][y]`: column x of 64, row y of 32 (R30, R210). -/
abbrev FrameBuffer := Vector (Vector Bool 32) 64

/-- The block's state: the record of R37 field for field (`SP` is `length(Stack)` and is computed, log entry 7), the model-only
mark of R35, and three fields of the model's own. -/
structure State where
  /-- `V[0]`..`V[15]` (R20). -/
  v : Vector Byte 16
  /-- The index register I (R23). -/
  i : Word
  /-- PC (R24). -/
  pc : Word
  /-- The call stack, oldest entry first, top entry last (R25, R10). -/
  stack : List Word
  /-- The delay timer DT (R27). -/
  dt : Byte
  /-- The sound timer ST (R28). -/
  st : Byte
  /-- Memory: the bytes that differ from their reset contents, by rising address (R29, R60; log entry 8). -/
  mem : List Host.Cell
  /-- The framebuffer FB (R30). -/
  fb : FrameBuffer
  /-- `Key[0]`..`Key[15]` (R31). -/
  keys : Vector Bool 16
  /-- `WaitArmed` (R32). -/
  waitArmed : Bool
  /-- `WaitedKey` (R32). -/
  waitedKey : Option Key
  /-- `Run` (R33). -/
  run : Run
  /-- `DiagOut`, oldest record first (R34). -/
  diagOut : List Diag
  /-- The model-only `Refused` mark with the record of R280 (R35, R287; log entry 5). -/
  refused : Option Diag
  /-- MODEL'S OWN: the parameters of R7, an argument of the model that nothing writes (R8; log entry 1). -/
  cfg : Config
  /-- MODEL'S OWN: how many free 8-bit draws have been made (R151, R163; log entry 3). -/
  draws : Nat
  /-- MODEL'S OWN: whether a `step()` has happened since the last reset (what R316 asks of `load_program`; log entry 6). -/
  stepped : Bool
  deriving DecidableEq, Repr

/-- Why a transaction has no move. -/
inductive Fault where
  /-- Raised by `step`, `timerTick`, `keyPress` and `keyRelease` in a state whose `Run` is `Faulted(cond, pc)`: "the block is
  stuck" (R283). Safe: the model stops where the spec says there is no move. -/
  | halted (cond : Fatal) (pc : Word)
  deriving DecidableEq, Repr

/-- Why the model gives no meaning. -/
inductive Refusal where
  /-- Raised by `exec` for an instruction whose meaning is not written. Safe. No arm of this model uses it. -/
  | notModelled (mnemonic : String)
  /-- Raised by `step`, `timerTick`, `keyPress` and `keyRelease` once the `Refused` mark is set: "the run is not a run the model
  gives a meaning to" (R287; log entry 5). Safe: the model stops. -/
  | refusedRun (mark : Diag)
  /-- Raised by `loadProgram` after the first step: no such move exists (R316, U21). Safe: the model stops. -/
  | loadAfterFirstStep
  deriving DecidableEq, Repr

/-- The values of R311 under configuration `c`, with the three things that `reset()` does not touch given: the mark (R310), the
configuration and the count of draws. -/
def State.resetWith (c : Config) (mark : Option Diag) (draws : Nat) : State where
  v         := Vector.replicate 16 resetV
  i         := resetI
  pc        := resetPc
  stack     := []
  dt        := resetTimer
  st        := resetTimer
  mem       := []
  fb        := Vector.replicate 64 (Vector.replicate 32 resetPixel)
  keys      := Vector.replicate 16 resetKey
  waitArmed := false
  waitedKey := none
  run       := .running
  diagOut   := []
  refused   := mark
  cfg       := c
  draws     := draws
  stepped   := false

/-- The machine right after reset (R311, R313), in the reference configuration of R7. -/
def State.reset : State := State.resetWith referenceConfig none 0

end Sys2Proof.Machine
end

