-- ==== Sys2Proof/Machine/Memory.lean ====
section
/-! DEFINITION. Memory as a canonical list of cells (spec 20_memory R60, R65): one byte read and one byte write. `d` is what an
address that no cell lists reads as. -/

namespace Sys2Proof.Machine

/-- The byte at address `a`. -/
def cellRead (d : Nat → Byte) : List Host.Cell → Nat → Byte
  | [], a => d a
  | c :: m, a => if c.1 = a then c.2 else cellRead d m a

/-- The cells without address `a`. -/
def cellErase (m : List Host.Cell) (a : Nat) : List Host.Cell := m.filter (fun c => c.1 != a)

/-- The cells with one more, put before the first cell of a higher address. -/
def cellInsert (c : Host.Cell) : List Host.Cell → List Host.Cell
  | [] => [c]
  | k :: m => if c.1 < k.1 then c :: k :: m else k :: cellInsert c m

/-- Write a byte: an address that comes to hold what it reads as unlisted is not listed. -/
def cellWrite (d : Nat → Byte) (m : List Host.Cell) (a : Nat) (b : Byte) : List Host.Cell :=
  if b = d a then cellErase m a else cellInsert (a, b) (cellErase m a)

/-- The canonical form: addresses strictly rising and below `MEM_SIZE`, no cell equal to what its address reads as unlisted. -/
abbrev Memory.wf (d : Nat → Byte) (m : List Host.Cell) : Prop :=
  m.Pairwise (fun c k => c.1 < k.1) ∧ ∀ c ∈ m, c.1 < memSize ∧ c.2 ≠ d c.1

end Sys2Proof.Machine
end

