-- ==== Sys2Proof/Machine/Ops.lean ====
section
/-! DEFINITION. The named operations over registers, memory, stack, latch, framebuffer and diagnostics, and the taking of a fatal
condition (spec 20_memory R62-R66; 40_control_flow R131, R132; 43_display R210; 44_input_timers R242-R245; 60_exceptions
R281, R284-R287). During `exec`, PC is the fetch address plus 2 (30_encoding R91). -/

namespace Sys2Proof.Machine

/-! ### Registers -/

/-- `V[x]` (R10, R20). -/
def State.getV (s : State) (x : Reg) : Byte := s.v.get x.toFin

/-- `V[x] <- b`. -/
def State.setV (s : State) (x : Reg) (b : Byte) : State := { s with v := s.v.set x.toNat b x.isLt }

/-- The number of VF (R21). -/
def vf : Reg := 0xF#4

/-- `SP`, the number of entries on the call stack (R26). -/
def State.sp (s : State) : Nat := s.stack.length

/-- `I <- w`. -/
def State.setI (s : State) (w : Word) : State := { s with i := w }

/-- `PC <- target`. -/
def State.jumpTo (s : State) (target : Word) : State := { s with pc := target }

/-- The address of the instruction in execution, PC before the fetch's advance (R90, R91; log entry 10). -/
def State.fpc (s : State) : Word := s.pc - 2#16

/-- A skip advances PC by a further 2 when its condition holds (R121). -/
def State.skipIf (s : State) (c : Bool) : State := if c then s.jumpTo (s.pc + 2#16) else s

/-! ### Taking a fatal condition (R281, R282) -/

/-- `raise Fault(code, info)` at fetch address `fpc`: `Run <- Faulted(code, info, fpc)`, PC is left at `fpc`, nothing else
changes. -/
def State.raiseAt (s : State) (fpc : Word) (f : Fatal) : State := { s with run := .faulted f fpc, pc := fpc }

/-- Raise during execute: the fetch's advance is undone (R282). -/
def State.raise (s : State) (f : Fatal) : State := s.raiseAt s.fpc f

/-- End an instruction whose checks may have raised: its result, or the fatal condition taken from the state `s` it started in,
with no other effect (R282). -/
def complete (s : State) (r : Except Fatal State) : Host.Outcome State Fault Refusal :=
  match r with
  | .ok t => .next t
  | .error f => .next (s.raise f)

/-- The code of a fatal condition (R280). -/
def Fatal.code : Fatal → Nat
  | .memOutOfRange _ _ => 1
  | .invalidKey _ => 2
  | .stackOverflow _ _ => 3
  | .stackUnderflow => 4

/-! ### Diagnostics and refusal (R285, R287) -/

/-- `Diag(w, fpc)`. -/
def State.diag (s : State) (w : Word) : State := { s with diagOut := s.diagOut ++ [⟨w, s.fpc⟩] }

/-- `Refuse(w, fpc)`: set the mark; like a fault, the step has no architectural effect, so PC is left at `fpc` (vector V11). -/
def State.refuse (s : State) (w : Word) : State := { s with refused := some ⟨w, s.fpc⟩, pc := s.fpc }

/-- R102: an instruction the source never describes has its meaning `t` only where the configuration admits it, and is refused
otherwise. -/
def admitted (s : State) (w : Word) (t : State) : Host.Outcome State Fault Refusal :=
  if s.cfg.admitGkOps = true then .next t else .next (s.refuse w)

/-! ### Memory (R62-R66) -/

/-- The byte at address `a`. -/
def State.readByte (s : State) (a : Nat) : Byte := cellRead (resetByte s.cfg) s.mem a

/-- Store one byte, unchecked. -/
def State.writeByte (s : State) (a : Nat) (b : Byte) : State :=
  { s with mem := cellWrite (resetByte s.cfg) s.mem a b }

/-- Store bytes at rising addresses from `a`, unchecked. -/
def State.writeBytes (s : State) (a : Nat) : List Byte → State
  | [] => s
  | b :: bs => (s.writeByte a b).writeBytes (a + 1) bs

/-- `MemRead(addr, len)` (R62): the bound is checked on the whole block first (R63, R64). -/
def memRead (s : State) (addr len : Nat) : Except Fatal (List Byte) :=
  if addr + len ≤ memSize then .ok ((List.range len).map (fun j => s.readByte (addr + j)))
  else .error (.memOutOfRange addr len)

/-- `MemWrite(addr, len, bytes)` (R62), `len` the number of bytes. -/
def memWrite (s : State) (addr : Nat) (bytes : List Byte) : Except Fatal State :=
  if addr + bytes.length ≤ memSize then .ok (s.writeBytes addr bytes)
  else .error (.memOutOfRange addr bytes.length)

/-! ### Call stack (R131, R132) -/

/-- `push(a)`. -/
def push (s : State) (a : Word) : Except Fatal State :=
  if s.cfg.stackOverflow = .fault ∧ s.sp = stackDepth then .error (.stackOverflow s.sp a)
  else .ok { s with stack := s.stack ++ [a] }

/-- `pop()`: the most recently pushed entry, or the configured behaviour on an empty stack. -/
def pop (s : State) : Except Fatal (Word × State) :=
  match s.stack.getLast? with
  | some a => .ok (a, { s with stack := s.stack.dropLast })
  | none =>
    match s.cfg.emptyReturn with
    | .pcZero => .ok (0x0000#16, s)
    | .fault => .error .stackUnderflow

/-! ### Free draws (R151, R163) -/

/-- `draw8()`: the next free byte, and the state in which it is used up. -/
def draw8 (s : State) : Byte × State := (Config.draw8 s.draws, { s with draws := s.draws + 1 })

/-! ### Input latch (R242, R244, R245) -/

/-- `Key[k]`. -/
def State.getKey (s : State) (k : Key) : Bool := s.keys.get k.toFin

/-- `Key[k] <- b`. -/
def State.setKey (s : State) (k : Key) (b : Bool) : State := { s with keys := s.keys.set k.toNat b k.isLt }

/-- `is_pressed(k)`: a value above 0xF is rejected, never masked (R242, R286). -/
def isPressed (s : State) (k : Byte) : Except Fatal Bool :=
  if k.toNat ≤ 0x0F then .ok (s.getKey (k.setWidth 4)) else .error (.invalidKey k)

/-- `arm_wait()`. -/
def armWait (s : State) : State := { s with waitArmed := true }

/-- `poll_waited_key()`: the key, and the state in which it is cleared. -/
def pollWaitedKey (s : State) : Option Key × State := (s.waitedKey, { s with waitedKey := none })

/-! ### Framebuffer (R210, R211: coordinates come already reduced) -/

/-- `clear()`. -/
def clearFb : FrameBuffer := Vector.replicate 64 (Vector.replicate 32 false)

/-- `get_pixel(cx, cy)`. -/
def getPixel (fb : FrameBuffer) (cx : Fin 64) (cy : Fin 32) : Bool := (fb.get cx).get cy

/-- `set_pixel(cx, cy, b)`. -/
def setPixel (fb : FrameBuffer) (cx : Fin 64) (cy : Fin 32) (b : Bool) : FrameBuffer :=
  fb.set cx.val ((fb.get cx).set cy.val b cy.isLt) cx.isLt

end Sys2Proof.Machine
end

