-- ==== Sys2Proof/Machine/Flags.lean ====
section
/-! DEFINITION. Every flag computation: VF as carry, not borrow, shifted-out bit, collision, and the `logic_vf` flag (spec 10_state
R21; 41_alu R150, R151, R158-R162; 43_display R214). -/

namespace Sys2Proof.Machine

/-- A flag is only ever 0x00 or 0x01. -/
def flagByte (c : Bool) : Byte := if c then 0x01#8 else 0x00#8

/-- ADD: the exact sum exceeds 255 (R158). -/
def carryFlag (a b : Byte) : Bool := decide (a.toNat + b.toNat > 255)

/-- SUB, SUBN: `a - b` does not borrow, `a >= b` (R159, R161). -/
def notBorrowFlag (a b : Byte) : Bool := decide (a.toNat ≥ b.toNat)

/-- SHR: bit 0 of the source (R160). -/
def shiftedOutRight (b : Byte) : Bool := b.getLsbD 0

/-- SHL: bit 7 of the source (R162). -/
def shiftedOutLeft (b : Byte) : Bool := b.getLsbD 7

/-- `VF <- flag`. -/
def State.setFlag (s : State) (c : Bool) : State := s.setV vf (flagByte c)

/-- Result to `V[x]`, then flag to VF, so that the flag is the final value of VF (R150). -/
def State.setResultFlag (s : State) (x : Reg) (r : Byte) (c : Bool) : State := (s.setV x r).setFlag c

/-- `logic_flag()` (R151). -/
def State.logicFlag (s : State) : State :=
  match s.cfg.logicVf with
  | .zero => s.setV vf 0x00#8
  | .preserve => s
  | .any =>
    let (r, t) := draw8 s
    t.setV vf r

end Sys2Proof.Machine
end

