-- ==== Sys2Proof/Machine/Alu.lean ====
section
/-! DEFINITION. Register loads and arithmetic (spec 41_alu R150-R164). No instruction here writes PC, reads memory or faults.
Family 8 reads both operands, writes the result, then writes the flag (R150). -/

namespace Sys2Proof.Machine

/-- `LD Vx, nn` (R152). -/
def execLdImm (x : Reg) (nn : Byte) (s : State) : Host.Outcome State Fault Refusal := .next (s.setV x nn)

/-- `ADD Vx, nn`: wraps, no flag (R153). -/
def execAddImm (x : Reg) (nn : Byte) (s : State) : Host.Outcome State Fault Refusal :=
  .next (s.setV x (BitVec.ofNat 8 ((s.getV x).toNat + nn.toNat)))

/-- `LD Vx, Vy` (R154), admitted only under `admit_gk_ops` (R102). -/
def execLdReg (x y : Reg) (s : State) : Host.Outcome State Fault Refusal :=
  admitted s (formatFXYN 0x8#4 x y 0x0#4) (s.setV x (s.getV y))

/-- `OR Vx, Vy` (R155). -/
def execOrReg (x y : Reg) (s : State) : Host.Outcome State Fault Refusal :=
  .next (s.setV x (s.getV x ||| s.getV y)).logicFlag

/-- `AND Vx, Vy` (R156). -/
def execAndReg (x y : Reg) (s : State) : Host.Outcome State Fault Refusal :=
  .next (s.setV x (s.getV x &&& s.getV y)).logicFlag

/-- `XOR Vx, Vy` (R157). -/
def execXorReg (x y : Reg) (s : State) : Host.Outcome State Fault Refusal :=
  .next (s.setV x (s.getV x ^^^ s.getV y)).logicFlag

/-- `ADD Vx, Vy`: the exact sum mod 256, VF the carry (R158). -/
def execAddReg (x y : Reg) (s : State) : Host.Outcome State Fault Refusal :=
  let a := s.getV x
  let b := s.getV y
  .next (s.setResultFlag x (BitVec.ofNat 8 (a.toNat + b.toNat)) (carryFlag a b))

/-- `SUB Vx, Vy`: `trunc_8(a - b + 256)`, VF not borrow (R159). -/
def execSubReg (x y : Reg) (s : State) : Host.Outcome State Fault Refusal :=
  let a := s.getV x
  let b := s.getV y
  .next (s.setResultFlag x (BitVec.ofNat 8 (a.toNat + 256 - b.toNat)) (notBorrowFlag a b))

/-- `SHR Vx, Vy`: the source is Vy (R160). -/
def execShr (x y : Reg) (s : State) : Host.Outcome State Fault Refusal :=
  let b := s.getV y
  .next (s.setResultFlag x (b >>> 1) (shiftedOutRight b))

/-- `SUBN Vx, Vy`: `trunc_8(b - a + 256)`, VF not borrow (R161). -/
def execSubn (x y : Reg) (s : State) : Host.Outcome State Fault Refusal :=
  let a := s.getV x
  let b := s.getV y
  .next (s.setResultFlag x (BitVec.ofNat 8 (b.toNat + 256 - a.toNat)) (notBorrowFlag b a))

/-- `SHL Vx, Vy`: the source is Vy (R162). -/
def execShl (x y : Reg) (s : State) : Host.Outcome State Fault Refusal :=
  let b := s.getV y
  .next (s.setResultFlag x (b <<< 1) (shiftedOutLeft b))

/-- `RND Vx, nn`: a free byte and the mask (R163), admitted only under `admit_gk_ops` (R102). -/
def execRnd (x : Reg) (nn : Byte) (s : State) : Host.Outcome State Fault Refusal :=
  let (r, t) := draw8 s
  admitted s (formatFXNN 0xC#4 x nn) (t.setV x (r &&& nn))

end Sys2Proof.Machine
end

