-- ==== Sys2Proof/Machine/Operands.lean ====
section
/-! DEFINITION. Every operand form (spec 30_encoding R94; 42_index_memory R182-R188): immediates, the effective addresses of R188,
and the blocks that memory transfers move. -/

namespace Sys2Proof.Machine

/-- Absolute 12-bit: `zext_16(nnn)` (R94, R188). -/
def absolute (nnn : Addr12) : Word := nnn.setWidth 16

/-- Absolute plus V0: `trunc_16(zext_16(nnn) + zext_16(V[0]))` (R129, R188). -/
def absolutePlusV0 (s : State) (nnn : Addr12) : Word := absolute nnn + (s.getV 0#4).setWidth 16

/-- I-indirect: the base of the block at I, the full 16 bits, never masked (R23, R188). -/
def indirect (s : State) : Nat := s.i.toNat

/-- `trunc_16(I + zext_16(V[x]))` (R181). -/
def indexPlus (s : State) (x : Reg) : Word := s.i + (s.getV x).setWidth 16

/-- The address of the glyph that the low nibble of Vx selects: `trunc_16(FONT_BASE + 5 * (V[x] & 0x0F))` (R182). -/
def glyphAddress (s : State) (x : Reg) : Word :=
  BitVec.ofNat 16 (s.cfg.fontBase.val + 5 * (s.getV x &&& 0x0F#8).toNat)

/-- The three decimal digits of a byte, hundreds first (R183). -/
def bcdDigits (b : Byte) : List Byte :=
  [BitVec.ofNat 8 (b.toNat / 100), BitVec.ofNat 8 (b.toNat / 10 % 10), BitVec.ofNat 8 (b.toNat % 10)]

/-- How many bytes `Fx55` and `Fx65` move: `x + 1` (R184, R185). -/
def transferLen (x : Reg) : Nat := x.toNat + 1

/-- `[V[0], ..., V[x]]` (R184). -/
def dumpBytes (s : State) (x : Reg) : List Byte :=
  (List.range (transferLen x)).map (fun j => s.getV (BitVec.ofNat 4 j))

/-- `V[j] <- b[0]`, `V[j+1] <- b[1]`, and so on (R185). -/
def loadRegs (s : State) (j : Nat) : List Byte → State
  | [] => s
  | b :: bs => loadRegs (s.setV (BitVec.ofNat 4 j) b) (j + 1) bs

/-- The I increment after a successful transfer of `x + 1` bytes, under `ldst_inc_i` (R186). -/
def advanceI (s : State) (x : Reg) : State :=
  if s.cfg.ldstIncI = true then s.setI (BitVec.ofNat 16 (s.i.toNat + transferLen x)) else s

end Sys2Proof.Machine
end

