-- ==== Sys2Proof/Machine/Control.lean ====
section
/-! DEFINITION. Control flow and the call stack (spec 40_control_flow R120-R133). On entry PC is the fetch address plus 2. -/

namespace Sys2Proof.Machine

/-- An unmatched pattern: a no-op that emits a diagnostic (R96, R284). -/
def execUnmatched (w : Word) (s : State) : Host.Outcome State Fault Refusal := .next (s.diag w)

/-- `SYS nnn` executes as an unmatched pattern, whose word is 0nnn (R130). -/
def execSys (nnn : Addr12) (s : State) : Host.Outcome State Fault Refusal := execUnmatched (formatFA 0x0#4 nnn) s

/-- `RET` (R124). -/
def execRet (s : State) : Host.Outcome State Fault Refusal :=
  complete s ((pop s).map (fun r => r.2.jumpTo r.1))

/-- `JP nnn` (R122). -/
def execJp (nnn : Addr12) (s : State) : Host.Outcome State Fault Refusal := .next (s.jumpTo (absolute nnn))

/-- `CALL nnn`: the pushed value is the already advanced PC (R123). -/
def execCall (nnn : Addr12) (s : State) : Host.Outcome State Fault Refusal :=
  complete s ((push s s.pc).map (fun t => t.jumpTo (absolute nnn)))

/-- `SE Vx, nn` (R125). -/
def execSeImm (x : Reg) (nn : Byte) (s : State) : Host.Outcome State Fault Refusal :=
  .next (s.skipIf (s.getV x == nn))

/-- `SNE Vx, nn` (R126). -/
def execSneImm (x : Reg) (nn : Byte) (s : State) : Host.Outcome State Fault Refusal :=
  .next (s.skipIf (s.getV x != nn))

/-- `SE Vx, Vy` (R127). -/
def execSeReg (x y : Reg) (s : State) : Host.Outcome State Fault Refusal :=
  .next (s.skipIf (s.getV x == s.getV y))

/-- `SNE Vx, Vy` (R128). -/
def execSneReg (x y : Reg) (s : State) : Host.Outcome State Fault Refusal :=
  .next (s.skipIf (s.getV x != s.getV y))

/-- `JP V0, nnn` (R129), admitted only under `admit_gk_ops` (R102). -/
def execJpV0 (nnn : Addr12) (s : State) : Host.Outcome State Fault Refusal :=
  admitted s (formatFA 0xB#4 nnn) (s.jumpTo (absolutePlusV0 s nnn))

end Sys2Proof.Machine
end

