-- ==== Sys2Proof/Machine/Display.lean ====
section
/-! DEFINITION. The framebuffer instructions (spec 43_display R210-R218). No instruction here writes PC. -/

namespace Sys2Proof.Machine

/-- `CLS` (R212). -/
def execCls (s : State) : Host.Outcome State Fault Refusal := .next { s with fb := clearFb }

/-- Bit `i` of a sprite byte, `i = 0` the most significant: `(sprite[j] >> (7 - i)) & 1` (R213, R215). -/
def spriteBit (b : Byte) (i : Nat) : Bool := b.getLsbD (7 - i)

/-- `(px + i) mod 64` (R213). -/
def spriteColumn (px : Byte) (i : Nat) : Fin 64 := Fin.ofNat 64 (px.toNat + i)

/-- `(py + j) mod 32` (R213). -/
def spriteRow (py : Byte) (j : Nat) : Fin 32 := Fin.ofNat 32 (py.toNat + j)

/-- The framebuffer during a draw, and whether a set pixel has become unset so far. -/
structure Canvas where
  fb        : FrameBuffer
  collision : Bool
  deriving DecidableEq, Repr

/-- One sprite bit on one pixel: a 1 bit inverts it and notes a collision where it was set; a 0 bit does nothing (R213, R214). -/
def plot (c : Canvas) (cx : Fin 64) (cy : Fin 32) (bit : Bool) : Canvas :=
  if bit then
    ⟨setPixel c.fb cx cy (!(getPixel c.fb cx cy)), c.collision || getPixel c.fb cx cy⟩
  else c

/-- Sprite row j: its 8 bits (the inner loop of R213). -/
def drawRow (px py : Byte) (j : Nat) (b : Byte) (c : Canvas) : Canvas :=
  (List.range 8).foldl (fun c i => plot c (spriteColumn px i) (spriteRow py j) (spriteBit b i)) c

/-- The sprite's rows from row j on (the outer loop of R213). -/
def drawRows (px py : Byte) (j : Nat) : List Byte → Canvas → Canvas
  | [], c => c
  | b :: bs, c => drawRows px py (j + 1) bs (drawRow px py j b c)

/-- The whole draw from the framebuffer of `s`; Vx and Vy are those before VF is reset (decision D8). -/
def drawSprite (s : State) (x y : Reg) (sprite : List Byte) : Canvas :=
  drawRows (s.getV x) (s.getV y) 0 sprite ⟨s.fb, false⟩

/-- Leave the drawn framebuffer, and VF the collision flag (R213, R214). -/
def State.setCanvas (s : State) (c : Canvas) : State := { s with fb := c.fb }.setFlag c.collision

/-- `DRW Vx, Vy, n` (R213). -/
def execDrw (x y : Reg) (n : Nib) (s : State) : Host.Outcome State Fault Refusal :=
  complete s ((memRead s (indirect s) n.toNat).map (fun sprite => s.setCanvas (drawSprite s x y sprite)))

end Sys2Proof.Machine
end

