-- ==== Sys2Proof/Machine/IndexMemory.lean ====
section
/-! DEFINITION. The index register and memory transfers (spec 42_index_memory R180-R188). No instruction here writes PC. -/

namespace Sys2Proof.Machine

/-- `LD I, nnn` (R180). -/
def execLdI (nnn : Addr12) (s : State) : Host.Outcome State Fault Refusal := .next (s.setI (absolute nnn))

/-- `ADD I, Vx`: 16-bit wrap, no flag, no mask (R181). -/
def execAddIVx (x : Reg) (s : State) : Host.Outcome State Fault Refusal := .next (s.setI (indexPlus s x))

/-- `LD F, Vx` (R182), admitted only under `admit_gk_ops` (R102). -/
def execLdFVx (x : Reg) (s : State) : Host.Outcome State Fault Refusal :=
  admitted s (formatFX 0xF#4 x 0x29#8) (s.setI (glyphAddress s x))

/-- `LD B, Vx`: I is never changed (R183, R186). -/
def execLdBVx (x : Reg) (s : State) : Host.Outcome State Fault Refusal :=
  complete s (memWrite s (indirect s) (bcdDigits (s.getV x)))

/-- `LD [I], Vx` (R184, R186). -/
def execLdMemVx (x : Reg) (s : State) : Host.Outcome State Fault Refusal :=
  complete s ((memWrite s (indirect s) (dumpBytes s x)).map (fun t => advanceI t x))

/-- `LD Vx, [I]`: all bytes are read before any register is written (R185, R186). -/
def execLdVxMem (x : Reg) (s : State) : Host.Outcome State Fault Refusal :=
  complete s ((memRead s (indirect s) (transferLen x)).map (fun bytes => advanceI (loadRegs s 0 bytes) x))

end Sys2Proof.Machine
end

