-- ==== Sys2Proof/Machine/InputTimers.lean ====
section
/-! DEFINITION. Key, key-wait and timer instructions (spec 44_input_timers R248-R254). -/

namespace Sys2Proof.Machine

/-- `SKP Vx` (R248). -/
def execSkp (x : Reg) (s : State) : Host.Outcome State Fault Refusal :=
  complete s ((isPressed s (s.getV x)).map (fun p => s.skipIf p))

/-- `SKNP Vx` (R249). -/
def execSknp (x : Reg) (s : State) : Host.Outcome State Fault Refusal :=
  complete s ((isPressed s (s.getV x)).map (fun p => s.skipIf (!p)))

/-- `LD Vx, K`: arm, poll, then take the key and disarm, or roll PC back to this instruction (R251). -/
def execLdVxK (x : Reg) (s : State) : Host.Outcome State Fault Refusal :=
  let (r, t) := pollWaitedKey (armWait s)
  match r with
  | some k => .next { t.setV x (k.setWidth 8) with waitArmed := false }
  | none => .next (t.jumpTo (t.pc - 2#16))

/-- `LD Vx, DT` (R252). -/
def execLdVxDt (x : Reg) (s : State) : Host.Outcome State Fault Refusal := .next (s.setV x s.dt)

/-- `LD DT, Vx` (R253). -/
def execLdDtVx (x : Reg) (s : State) : Host.Outcome State Fault Refusal := .next { s with dt := s.getV x }

/-- `LD ST, Vx` (R254). -/
def execLdStVx (x : Reg) (s : State) : Host.Outcome State Fault Refusal := .next { s with st := s.getV x }

end Sys2Proof.Machine
end

