-- ==== Sys2Proof/Machine/Fetch.lean ====
section
/-! DEFINITION. When a transaction has a move, and the fetch (spec 30_encoding R90, R91; 60_exceptions R283, R287, R288). -/

namespace Sys2Proof.Machine

/-- Run a transaction that is enabled only where `Run = Running` (R90, R240, R241, R250); a faulted block is stuck (R283), and so
is one whose `Refused` mark is set, which "acts like a fault" (R287; log entry 5). -/
def whenEnabled (s : State) (go : Host.Outcome State Fault Refusal) : Host.Outcome State Fault Refusal :=
  match s.run, s.refused with
  | .faulted f p, _ => .fault (.halted f p)
  | .running, some m => .refused (.refusedRun m)
  | .running, none => go

/-- A step has begun (log entry 6). -/
def State.markStepped (s : State) : State := { s with stepped := true }

/-- `MemRead(PC, 2)` (R90). -/
def fetchBytes (s : State) : Except Fatal (List Byte) := memRead s s.pc.toNat 2

/-- The fetched word, big-endian (R66, R90). -/
def wordAt (s : State) (a : Nat) : Word := wordOfBytes (s.readByte a) (s.readByte (a + 1))

/-- `PC <- trunc_16(PC + 2)`, before dispatch (R91). -/
def State.advancePc (s : State) : State := { s with pc := s.pc + 2#16 }

/-- The state an instruction body starts in: a step has begun and PC is past the word. -/
def State.entry (s : State) : State := s.markStepped.advancePc

/-- What a step does with the bytes it fetched: decode the word and execute it, `run` being the execute function. -/
def runBytes (run : Instr → State → Host.Outcome State Fault Refusal) (s : State) (bytes : List Byte) :
    Host.Outcome State Fault Refusal :=
  match decodeBytes bytes with
  | some (.instr i, _) => run i s.entry
  | some (.unmatched w, _) => execUnmatched w s.entry
  | none => .next (s.markStepped.raiseAt s.pc (.memOutOfRange s.pc.toNat 2))

/-- One fetch, decode, execute cycle (R90), in the order of R288. -/
def cycle (run : Instr → State → Host.Outcome State Fault Refusal) (s : State) : Host.Outcome State Fault Refusal :=
  match fetchBytes s with
  | .ok bytes => runBytes run s bytes
  | .error f => .next (s.markStepped.raiseAt s.pc f)

/-- Store an instruction word where the next fetch reads it, high byte first (R66). Where PC leaves no room for a word there is
no place to store it, and nothing is stored. -/
def State.placeWord (s : State) (w : Word) : State :=
  if s.pc.toNat + 2 ≤ memSize then s.writeBytes s.pc.toNat [highByte w, lowByte w] else s

end Sys2Proof.Machine
end

