-- ==== Sys2Proof/Machine/Step.lean ====
section
/-! DEFINITION. `step()` (spec 30_encoding R90) and the host's way to place one instruction. -/

namespace Sys2Proof.Machine

/-- One `step()`: one fetch-decode-execute cycle where the block has a move. -/
def step (s : State) : Host.Outcome State Fault Refusal := whenEnabled s (cycle exec s)

/-- `s` with the instruction of these bits stored where `step` fetches next (log entry 14). -/
def State.withFetchWord (s : State) (nbits w : Nat) : State := s.placeWord (tableWord nbits w)

end Sys2Proof.Machine
end

