-- ==== Sys2Proof/Machine/Transactions.lean ====
section
/-! DEFINITION. The host's transactions and read-outs (spec 10_state R40-R42; 44_input_timers R240, R241, R250; 70_reset_and_hazards
R310-R316). Each is one atomic function on the state (R41); the host chooses their order (R327; log entry 12). -/

namespace Sys2Proof.Machine

/-- A timer that is not 0 loses 1 (R250). -/
def decrementTimer (b : Byte) : Byte := if b.toNat > 0 then b - 1#8 else b

/-- `timer_tick()` (R250). -/
def timerTick (s : State) : Host.Outcome State Fault Refusal :=
  whenEnabled s (.next { s with dt := decrementTimer s.dt, st := decrementTimer s.st })

/-- `key_press(k)` (R240). -/
def keyPress (k : Key) (s : State) : Host.Outcome State Fault Refusal :=
  whenEnabled s (.next (s.setKey k true))

/-- The state after `key_release(k)`: only the release of a pressed key resolves an armed wait, and it disarms it (R241). -/
def releaseKey (k : Key) (s : State) : State :=
  let was := s.getKey k
  let t := s.setKey k false
  if s.waitArmed = true ∧ was = true then { t with waitedKey := some k, waitArmed := false } else t

/-- `key_release(k)` (R241). -/
def keyRelease (k : Key) (s : State) : Host.Outcome State Fault Refusal := whenEnabled s (.next (releaseKey k s))

/-- `reset()`: every field of R37 at its value of R311, from any state, `Faulted` too; the `Refused` mark stays (R310), and so do
the parameters and the count of draws (log entry 15). -/
def resetBlock (s : State) : State := State.resetWith s.cfg s.refused s.draws

/-- Whether the host's load of this image succeeds: it fits (R315). -/
def loadFits (bytes : List Byte) : Bool := decide (bytes.length ≤ progMax)

/-- `load_program(bytes)`: only between a reset and the first step (R316); an image that does not fit is rejected with no state
change (R315; log entry 13). -/
def loadProgram (bytes : List Byte) (s : State) : Host.Outcome State Fault Refusal :=
  if s.stepped = true then .refused .loadAfterFirstStep
  else if loadFits bytes = true then .next (s.writeBytes progBase bytes)
  else .next s

/-- The transactions that may change the state (R40). -/
inductive Transaction where
  | step
  | timerTick
  | keyPress (k : Key)
  | keyRelease (k : Key)
  | reset
  | loadProgram (bytes : List Byte)
  deriving DecidableEq, Repr

/-- One transaction. -/
def transact (t : Transaction) (s : State) : Host.Outcome State Fault Refusal :=
  match t with
  | .step => step s
  | .timerTick => timerTick s
  | .keyPress k => keyPress k s
  | .keyRelease k => keyRelease k s
  | .reset => .next (resetBlock s)
  | .loadProgram bytes => loadProgram bytes s

/-- Transactions in the order the host chose (R41, R327), up to the first that has no move. -/
def transactAll : List Transaction → State → Host.Outcome State Fault Refusal
  | [], s => .next s
  | t :: ts, s =>
    match transact t s with
    | .next s' => transactAll ts s'
    | .fault f => .fault f
    | .refused r => .refused r

/-- `framebuffer()`: a read-only copy of FB (R40, R219). -/
def framebuffer (s : State) : FrameBuffer := s.fb

/-- `status()`: a read-only copy of `Run`, `DT`, `ST` and the rest of the state (R40, R41). -/
def status (s : State) : State := s

/-- `diagnostics()`: `DiagOut` (R40, R285). -/
def diagnostics (s : State) : List Diag := s.diagOut

end Sys2Proof.Machine
end

