-- ==== Sys2Proof/Safety.lean ====
section
/-! DEFINITION. The terms in which claims are made: the parts of a state and frames over them, the invariant of the block, what a
safe state is, which registers an instruction may write, and which pixels a sprite covers. -/

namespace Sys2Proof.Machine

/-- One separately observable part of a state (R37, R35). Memory is observed byte by byte, the framebuffer pixel by pixel. -/
inductive Part where
  | v (x : Reg)
  | i
  | pc
  | stack
  | dt
  | st
  | mem (a : Nat)
  | pixel (cx : Fin 64) (cy : Fin 32)
  | key (k : Key)
  | waitArmed
  | waitedKey
  | run
  | diagOut
  | refused
  | cfg
  | draws
  | stepped
  deriving DecidableEq, Repr

/-- The part reads the same in `t` as in `s`. -/
def Part.same (s t : State) : Part → Prop
  | .v x => t.getV x = s.getV x
  | .i => t.i = s.i
  | .pc => t.pc = s.pc
  | .stack => t.stack = s.stack
  | .dt => t.dt = s.dt
  | .st => t.st = s.st
  | .mem a => t.readByte a = s.readByte a
  | .pixel cx cy => getPixel t.fb cx cy = getPixel s.fb cx cy
  | .key k => t.getKey k = s.getKey k
  | .waitArmed => t.waitArmed = s.waitArmed
  | .waitedKey => t.waitedKey = s.waitedKey
  | .run => t.run = s.run
  | .diagOut => t.diagOut = s.diagOut
  | .refused => t.refused = s.refused
  | .cfg => t.cfg = s.cfg
  | .draws => t.draws = s.draws
  | .stepped => t.stepped = s.stepped

/-- A frame: every part outside `touched` reads in `t` as in `s`. -/
def UnchangedBut (touched : Part → Prop) (s t : State) : Prop := ∀ p, ¬touched p → p.same s t

/-- The parts of a list, as a frame's set of touched parts. -/
def Part.among (ps : List Part) (p : Part) : Prop := p ∈ ps

/-- The bytes of a block, as a frame's set of touched parts. -/
def Part.inBlock (a len : Nat) (p : Part) : Prop := ∃ j, j < len ∧ p = .mem (a + j)

/-- Some pixel, as a frame's set of touched parts. -/
def Part.isPixel (p : Part) : Prop := ∃ cx cy, p = .pixel cx cy

/-- The block runs and the run has a meaning: `Run = Running` and no `Refused` mark (R283, R287). -/
def State.Safe (s : State) : Prop := s.run = .running ∧ s.refused = none

/-- The info of a recorded condition meets the test that raised it (R280, R63, R242, R131, R132). -/
def Fatal.Sound (c : Config) : Fatal → Prop
  | .memOutOfRange addr len => memSize < addr + len
  | .invalidKey k => 0x0F < k.toNat
  | .stackOverflow n _ => c.stackOverflow = .fault ∧ n = stackDepth
  | .stackUnderflow => c.emptyReturn = .fault

/-- What `Run` records: a faulted block has PC at the recorded address, and a sound condition (R281, R282). -/
def Run.Sound (s : State) : Run → Prop
  | .running => True
  | .faulted f p => p = s.pc ∧ f.Sound s.cfg

/-- The invariant of the block: memory in canonical form inside its 4096 bytes; at most 16 stack entries where the stack is
bounded (R26); the key-wait pair (true, some k) excluded (R243); a sound `Run`; a `Refused` mark only where the configuration
refuses (R287); and before the first step a running block with no diagnostic (R316). -/
structure State.Inv (s : State) : Prop where
  mem    : Memory.wf (resetByte s.cfg) s.mem
  stack  : s.cfg.stackOverflow = .fault → s.sp ≤ stackDepth
  latch  : s.waitArmed = true → s.waitedKey = none
  run    : s.run.Sound s
  mark   : s.refused ≠ none → s.cfg.admitGkOps = false
  launch : s.stepped = false → s.run = .running ∧ s.diagOut = []

end Sys2Proof.Machine

namespace Sys2Proof

/-- The general registers an instruction may write: R22, with the flag writers of R21. -/
def Instr.WritesReg : Instr → Reg → Prop
  | .ldImm x _, r | .addImm x _, r | .ldReg x _, r | .rnd x _, r | .ldVxDt x, r | .ldVxK x, r => r = x
  | .orReg x _, r | .andReg x _, r | .xorReg x _, r | .addReg x _, r | .subReg x _, r | .shr x _, r | .subn x _, r
  | .shl x _, r => r = x ∨ r = Machine.vf
  | .drw _ _ _, r => r = Machine.vf
  | .ldVxMem x, r => r.toNat ≤ x.toNat
  | .sys _, _ | .cls, _ | .ret, _ | .jp _, _ | .call _, _ | .seImm _ _, _ | .sneImm _ _, _ | .seReg _ _, _ | .sneReg _ _, _
  | .ldI _, _ | .jpV0 _, _ | .skp _, _ | .sknp _, _ | .ldDtVx _, _ | .ldStVx _, _ | .addIVx _, _ | .ldFVx _, _ | .ldBVx _, _
  | .ldMemVx _, _ => False

/-- The four instructions that a configuration without `admit_gk_ops` refuses (R102). -/
def Instr.Refusable : Instr → Prop
  | .ldReg _ _ | .jpV0 _ | .rnd _ _ | .ldFVx _ => True
  | .sys _ | .cls | .ret | .jp _ | .call _ | .seImm _ _ | .sneImm _ _ | .seReg _ _ | .ldImm _ _ | .addImm _ _ => False
  | .orReg _ _ | .andReg _ _ | .xorReg _ _ | .addReg _ _ | .subReg _ _ | .shr _ _ | .subn _ _ | .shl _ _ => False
  | .sneReg _ _ | .ldI _ | .drw _ _ _ | .skp _ | .sknp _ | .ldVxDt _ | .ldVxK _ | .ldDtVx _ | .ldStVx _ | .addIVx _ => False
  | .ldBVx _ | .ldMemVx _ | .ldVxMem _ => False

end Sys2Proof

namespace Sys2Proof.Machine

/-- The sprite of `n` bytes at I has a 1 bit on pixel (cx, cy) when drawn at column px, row py: some byte j and bit index i with
`(px + i) mod 64 = cx`, `(py + j) mod 32 = cy`, bit index 0 being bit 7 (R213, R215). -/
def Covers (s : State) (px py n : Nat) (cx : Fin 64) (cy : Fin 32) : Prop :=
  ∃ j i, j < n ∧ i < 8 ∧ (px + i) % 64 = cx.val ∧ (py + j) % 32 = cy.val ∧
    (s.readByte (s.i.toNat + j)).toNat / 2 ^ (7 - i) % 2 = 1

/-- The decoder reads instruction `i` from the word that is the number `w`. -/
def Encoded (w : Nat) (i : Instr) : Prop := w < 65536 ∧ decode (BitVec.ofNat 16 w) = .instr i

/-- The run goes no further: step, tick, press and release are refused with the mark `d` (R287; log entry 5). -/
def RunRefused (d : Diag) (s : State) : Prop :=
  step s = .refused (.refusedRun d) ∧ timerTick s = .refused (.refusedRun d) ∧
  ∀ k, keyPress k s = .refused (.refusedRun d) ∧ keyRelease k s = .refused (.refusedRun d)

/-- The fatal condition `f` taken by an instruction that started with PC past its word: PC back at the instruction, `Run` the
record, nothing else changed (R281, R282). -/
def Faults (i : Instr) (s : State) (f : Fatal) : Prop :=
  exec i s = .next { s with run := .faulted f (s.pc - 2#16), pc := s.pc - 2#16 }

end Sys2Proof.Machine
end

