-- ==== Sys2Proof/Certificates/Slice0/Obligations.lean ====
section
/-! DEFINITION. The statements about the model, each from a numbered rule of spec/. `exec` is given a state whose PC is already past
the instruction's word (30_encoding R91), so there `s.pc - 2` is the fetch address. `Encoded w i` says that the number w is
a word of i, which is the Encoding line of the instruction's rule. A frame `UnchangedBut touched s t` names what may differ. -/

open Sys2Proof Sys2Proof.Machine

/-! ### Encoding -/

/-- R93, R95, R98: no bit of an encoding is dropped. -/
def Obligations.DecodeOfEncode : Prop :=
  ∀ i : Instr, i.wellFormed = true → decode (encode i) = .instr i

/-- R95, R98, the other direction: a decoded instruction is well formed and its encoding is the word, but for the low nibble that
families 5 and 9 do not examine. -/
def Obligations.EncodeOfDecode : Prop :=
  ∀ (w : Word) (i : Instr), decode w = .instr i →
    i.wellFormed = true ∧
    (encode i).toNat =
      if w.toNat / 4096 = 0x5 ∨ w.toNat / 4096 = 0x9 then w.toNat - w.toNat % 16 else w.toNat

/-- The words of R96: which words match no row but `SYS`, and which are `SYS`. -/
def Obligations.UnmatchedWords : Prop :=
  ∀ w : Word,
    (∀ u, decode w = .unmatched u → u = w) ∧
    (decode w = .unmatched w ↔
      (w.toNat / 4096 = 0x8 ∧ (0x8 ≤ w.toNat % 16 ∧ w.toNat % 16 ≤ 0xD ∨ w.toNat % 16 = 0xF)) ∨
      (w.toNat / 4096 = 0xE ∧ w.toNat % 256 ≠ 0x9E ∧ w.toNat % 256 ≠ 0xA1) ∨
      (w.toNat / 4096 = 0xF ∧ w.toNat % 256 ∉ [0x07, 0x0A, 0x15, 0x18, 0x1E, 0x29, 0x33, 0x55, 0x65])) ∧
    (∀ nnn : Addr12, decode w = .instr (.sys nnn) ↔
      w.toNat / 4096 = 0 ∧ w.toNat ≠ 0x00E0 ∧ w.toNat ≠ 0x00EE ∧ nnn.toNat = w.toNat)

/-- A sanity statement: nine words written out bit by bit from R93 and R98 decode to what they stand for. The low nibble 1 of the
SE Vx,Vy word is not examined (R95 with the spec's own decision D9, log entry 17). -/
def Obligations.SampleWordsDecode : Prop :=
  decode 0b0000000011100000#16 = .instr .cls ∧
  decode 0b0000000011101110#16 = .instr .ret ∧
  decode 0b0010010000000000#16 = .instr (.call 0x400#12) ∧
  decode 0b0011001100101010#16 = .instr (.seImm 0x3#4 0x2A#8) ∧
  decode 0b0101000100100001#16 = .instr (.seReg 0x1#4 0x2#4) ∧
  decode 0b1000000011110110#16 = .instr (.shr 0x0#4 0xF#4) ∧
  decode 0b1101001000110010#16 = .instr (.drw 0x2#4 0x3#4 0x2#4) ∧
  decode 0b1110010010100001#16 = .instr (.sknp 0x4#4) ∧
  decode 0b1111001101100101#16 = .instr (.ldVxMem 0x3#4)

/-! ### The step -/

/-- R90: the enabled step fetches two bytes big-endian, advances PC by 2, decodes and executes (an unmatched word as R96 says);
the fetch faults exactly when `PC + 2 > 4096`; a faulted block has no step. `stepped` is the model's own launch bit (log
entry 6). -/
def Obligations.StepFetchesDecodesExecutes : Prop :=
  ∀ s : State,
    (s.Safe → s.pc.toNat + 2 ≤ 4096 →
      ∀ w : Word, w.toNat = (s.readByte s.pc.toNat).toNat * 256 + (s.readByte (s.pc.toNat + 1)).toNat →
      (∀ i, decode w = .instr i →
        step s = exec i { s with pc := BitVec.ofNat 16 (s.pc.toNat + 2), stepped := true }) ∧
      (∀ u, decode w = .unmatched u →
        step s = .next { s with pc := BitVec.ofNat 16 (s.pc.toNat + 2), stepped := true,
                                diagOut := s.diagOut ++ [⟨w, s.pc⟩] })) ∧
    (s.Safe → 4096 < s.pc.toNat + 2 →
      step s = .next { s with run := .faulted (.memOutOfRange s.pc.toNat 2) s.pc, stepped := true }) ∧
    (∀ f p, s.run = .faulted f p → step s = .fault (.halted f p))

/-- R284: an unmatched word is a no-op with a diagnostic, and execution continues. That `SYS` is such a word is R96 and R130 (the
spec's own decision D10), that the recorded address is the fetch address is R285 (decision D20, log entry 18); `stepped` is the
model's own launch bit (log entry 6). -/
def Obligations.UnmatchedWordIsDiagnosedNoOp : Prop :=
  ∀ (s : State) (w : Word), s.Safe → s.pc.toNat + 2 ≤ 4096 →
    w.toNat = (s.readByte s.pc.toNat).toNat * 256 + (s.readByte (s.pc.toNat + 1)).toNat →
    (decode w = .unmatched w ∨ ∃ nnn, decode w = .instr (.sys nnn)) →
    ∃ t, step s = .next t ∧ t.Safe ∧ t.pc.toNat = s.pc.toNat + 2 ∧ t.diagOut = s.diagOut ++ [⟨w, s.pc⟩] ∧
      UnchangedBut (Part.among [.pc, .diagOut, .stepped]) s t

/-- R283: once `Faulted`, step, tick, press and release have no move, and `reset()` returns the block to `Running`. -/
def Obligations.FaultedBlockIsStuck : Prop :=
  ∀ (s : State) (f : Fatal) (p : Word), s.run = .faulted f p →
    step s = .fault (.halted f p) ∧ timerTick s = .fault (.halted f p) ∧
    (∀ k, keyPress k s = .fault (.halted f p)) ∧ (∀ k, keyRelease k s = .fault (.halted f p)) ∧
    ∃ t, transact .reset s = .next t ∧ t.run = .running

/-- R282: a step that raises a fatal condition has no architectural effect other than setting `Run`. -/
def Obligations.FatalConditionsArePrecise : Prop :=
  ∀ s t : State, step s = .next t → t.run ≠ s.run →
    ∃ f, t = { s with run := .faulted f s.pc, stepped := true }

/-- R280 with the order of R288: which condition a step may leave, with its info, and in which instruction. -/
def Obligations.FatalConditionsByInstruction : Prop :=
  ∀ (s t : State) (f : Fatal) (p : Word), step s = .next t → t.run = .faulted f p →
    p = s.pc ∧
    if 4096 < s.pc.toNat + 2 then f = .memOutOfRange s.pc.toNat 2
    else ∃ i, decode (wordAt s s.pc.toNat) = .instr i ∧
      match f with
      | .memOutOfRange a n => a = s.i.toNat ∧ 4096 < a + n ∧
          ((∃ x y m, i = .drw x y m ∧ n = m.toNat) ∨ (∃ x, i = .ldBVx x ∧ n = 3) ∨
           (∃ x, (i = .ldMemVx x ∨ i = .ldVxMem x) ∧ n = x.toNat + 1))
      | .invalidKey k => 0x0F < k.toNat ∧ ∃ x, (i = .skp x ∨ i = .sknp x) ∧ k = s.getV x
      | .stackOverflow n a => s.cfg.stackOverflow = .fault ∧ n = 16 ∧ s.sp = 16 ∧ a = s.pc + 2#16 ∧ ∃ nnn, i = .call nnn
      | .stackUnderflow => s.cfg.emptyReturn = .fault ∧ s.sp = 0 ∧ i = .ret

/-- R287 with R102: the mark is set exactly by the four instructions, exactly where `admit_gk_ops = false`, with the word and the
fetch address, and with no architectural effect; it stays across reset, and the run goes no further: step, tick, press and release
are refused with the mark, before a reset and after it (log entry 5). -/
def Obligations.RefusalMarksTheRun : Prop :=
  ∀ s t : State, step s = .next t →
    (t.refused ≠ none ↔
      s.cfg.admitGkOps = false ∧ s.pc.toNat + 2 ≤ 4096 ∧
        ∃ i, decode (wordAt s s.pc.toNat) = .instr i ∧ i.Refusable) ∧
    (t.refused ≠ none → t = { s with refused := some ⟨wordAt s s.pc.toNat, s.pc⟩, stepped := true } ∧
      RunRefused ⟨wordAt s s.pc.toNat, s.pc⟩ t ∧
      ∃ u, transact .reset t = .next u ∧ u.refused = t.refused ∧ RunRefused ⟨wordAt s s.pc.toNat, s.pc⟩ u)

/-- R91, R121: where PC can stand after an instruction. Every instruction answers a next state, from every state: in this model the
step that raises a fatal condition (R281, log entry 4) and the step that R102 and R287 refuse (log entry 5) are next states, with
PC at the fetch address and `Run` or the mark set. -/
def Obligations.ExecAlwaysAnswersNext : Prop :=
  ∀ (i : Instr) (s : State), ∃ t, exec i s = .next t ∧
    (t.pc = s.pc - 2#16 ∨ t.pc = s.pc ∨ t.pc = s.pc + 2#16 ∨
     (∃ nnn, (i = .jp nnn ∨ i = .call nnn ∨ i = .jpV0 nnn)) ∨ i = .ret)

/-! ### Invariants and whole-machine rules -/

/-- R311: the state that reset leaves meets the invariant, in every configuration, after any number of draws; `State.reset` is the
one of the reference configuration (log entry 2). A run that holds a mark keeps it across reset (R310): there the invariant asks
that the configuration refuses. -/
def Obligations.ResetMeetsStateInv : Prop :=
  State.reset.Inv ∧ ∀ (c : Config) (mark : Option Diag) (draws : Nat),
    (State.resetWith c mark draws).Inv ↔ (mark ≠ none → c.admitGkOps = false)

/-- Every step keeps the invariant, from every state that meets it. -/
def Obligations.StepKeepsStateInv : Prop :=
  ∀ s t : State, s.Inv → Sys2Proof.Machine.step s = .next t → t.Inv

/-- Every transaction of the host keeps the invariant too. -/
def Obligations.HostTransactionsKeepStateInv : Prop :=
  ∀ (e : Transaction) (s t : State), e ≠ .step → s.Inv → transact e s = .next t → t.Inv

/-- R21, R22: an instruction changes no general register but those it writes. -/
def Obligations.RegistersWrittenByInstruction : Prop :=
  ∀ (i : Instr) (s t : State) (r : Reg), exec i s = .next t → ¬i.WritesReg r → t.getV r = s.getV r

/-- R25, R133: no instruction but CALL and RET touches the call stack, at its top; nothing below the top changes. -/
def Obligations.StackOnlyByCallAndReturn : Prop :=
  ∀ (i : Instr) (s t : State), exec i s = .next t →
    t.stack = s.stack ∨ (∃ nnn, i = .call nnn ∧ t.stack = s.stack ++ [s.pc]) ∨
    (i = .ret ∧ ∃ a, s.stack = t.stack ++ [a])

/-- R27, R28: no instruction changes DT but `Fx15`, none changes ST but `Fx18`; I is changed by no instruction but those
R23 lists. -/
def Obligations.TimersAndIndexWrittenByInstruction : Prop :=
  ∀ (i : Instr) (s t : State), exec i s = .next t →
    ((∀ x, i ≠ .ldDtVx x) → t.dt = s.dt) ∧ ((∀ x, i ≠ .ldStVx x) → t.st = s.st) ∧
    ((∀ nnn, i ≠ .ldI nnn) → (∀ x, i ≠ .addIVx x ∧ i ≠ .ldFVx x ∧ i ≠ .ldMemVx x ∧ i ≠ .ldVxMem x) → t.i = s.i) ∧
    ((∃ x, i = .ldMemVx x ∨ i = .ldVxMem x) → s.cfg.ldstIncI = false → t.i = s.i)

/-- R23, R27, R28, R37 over all transactions: DT and ST change only in a tick, in `reset()` or in a step of their load instruction;
I only in `reset()` or in a step of an instruction R23 lists, for `Fx55` and `Fx65` under `ldst_inc_i` (decision D5). -/
def Obligations.TimersAndIndexChangedOnlyBy : Prop :=
  ∀ (e : Transaction) (s t : State), transact e s = .next t →
    (t.dt ≠ s.dt → e = .timerTick ∨ e = .reset ∨ (e = .step ∧ ∃ x, decode (wordAt s s.pc.toNat) = .instr (.ldDtVx x))) ∧
    (t.st ≠ s.st → e = .timerTick ∨ e = .reset ∨ (e = .step ∧ ∃ x, decode (wordAt s s.pc.toNat) = .instr (.ldStVx x))) ∧
    (t.i ≠ s.i → e = .reset ∨ (e = .step ∧ ∃ i, decode (wordAt s s.pc.toNat) = .instr i ∧
      ((∃ nnn, i = .ldI nnn) ∨ (∃ x, i = .addIVx x ∨ i = .ldFVx x) ∨
       (s.cfg.ldstIncI = true ∧ ∃ x, i = .ldMemVx x ∨ i = .ldVxMem x))))

/-- R61, R37, R316 over all transactions: a byte of memory changes only in `reset()`, in a program load before the first step,
inside the image's bytes from 0x200, or in a step of `Fx33`, inside its 3 bytes at I, or of `Fx55`, inside its x+1. That a load is
before the first step is the spec's own decision D24 and the model's launch bit (log entries 6 and 13). -/
def Obligations.MemoryChangedOnlyBy : Prop :=
  ∀ (e : Transaction) (s t : State) (a : Nat), transact e s = .next t → t.readByte a ≠ s.readByte a →
    e = .reset ∨
    (∃ image, e = .loadProgram image ∧ s.stepped = false ∧ 0x200 ≤ a ∧ a < 0x200 + image.length ∧ a < 4096) ∨
    (e = .step ∧ ∃ x, a < 4096 ∧ s.i.toNat ≤ a ∧
      (decode (wordAt s s.pc.toNat) = .instr (.ldBVx x) ∧ a < s.i.toNat + 3 ∨
       decode (wordAt s s.pc.toNat) = .instr (.ldMemVx x) ∧ a < s.i.toNat + (x.toNat + 1)))

/-- R218 over all transactions: a pixel changes only in `reset()` or in a step that executes `CLS` or `DRW`. -/
def Obligations.FramebufferWrittenOnlyBy : Prop :=
  ∀ (e : Transaction) (s t : State), transact e s = .next t → t.fb ≠ s.fb →
    e = .reset ∨ (e = .step ∧ ∃ i, decode (wordAt s s.pc.toNat) = .instr i ∧ (i = .cls ∨ ∃ x y n, i = .drw x y n))

/-- R61 over all instructions: no instruction changes a byte of memory but `Fx33`, inside its 3 bytes at I, and `Fx55`, inside
its x+1. -/
def Obligations.MemoryWrittenOnlyBy : Prop :=
  ∀ (i : Instr) (s t : State) (a : Nat), exec i s = .next t → t.readByte a ≠ s.readByte a →
    (∃ x, i = .ldBVx x ∧ s.i.toNat ≤ a ∧ a < s.i.toNat + 3 ∧ a < 4096) ∨
    (∃ x, i = .ldMemVx x ∧ s.i.toNat ≤ a ∧ a < s.i.toNat + (x.toNat + 1) ∧ a < 4096)

/-- R31, R246: no instruction changes a key, and only `Fx0A` changes the wait state. -/
def Obligations.KeysAndLatchUnderInstructions : Prop :=
  ∀ (i : Instr) (s t : State), exec i s = .next t →
    t.keys = s.keys ∧ ((∀ x, i ≠ .ldVxK x) → t.waitArmed = s.waitArmed ∧ t.waitedKey = s.waitedKey)

/-- R7, R8: no transaction changes the parameters of the configuration. -/
def Obligations.ConfigurationNeverChanges : Prop :=
  ∀ (e : Transaction) (s t : State), transact e s = .next t → t.cfg = s.cfg

/-- R28: ST is read by no instruction: with the same draws, a different ST changes nothing but ST. The two steps start with equal
draw counters, so a `RND` or a `logic_vf = any` draws the same byte in both: that is the model's choice (log entry 3). -/
def Obligations.SoundTimerIsNeverRead : Prop :=
  ∀ (s t : State) (b : Byte), step s = .next t →
    ∃ u, step { s with st := b } = .next u ∧ u = { t with st := u.st } ∧ (u.st = b ∨ u.st = t.st)

/-- R34: `DiagOut` is output only: with the same draws, a step from a state with other diagnostics appends the same records and is
otherwise the same. The two steps start with equal draw counters, so a `RND` or a `logic_vf = any` draws the same byte in both: that
is the model's choice (log entry 3). -/
def Obligations.DiagnosticsNeverAffectExecution : Prop :=
  ∀ (s t : State) (ds : List Diag), step s = .next t →
    ∃ new, t.diagOut = s.diagOut ++ new ∧ step { s with diagOut := ds } = .next { t with diagOut := ds ++ new }

/-! ### Control flow and the call stack -/

/-- R122: the jump, and what it says of the next fetch when nnn = 0xFFF. -/
def Obligations.JumpSetsPc : Prop :=
  ∀ (nnn : Addr12) (s : State), Encoded (0x1000 + nnn.toNat) (.jp nnn) ∧
    ∃ t, exec (.jp nnn) s = .next t ∧ t.pc.toNat = nnn.toNat ∧ UnchangedBut (Part.among [.pc]) s t ∧
      (s.Safe → nnn.toNat = 0xFFF → ∃ u p, step t = .next u ∧ u.run = .faulted (.memOutOfRange 0xFFF 2) p)

/-- R123 with R131: the advanced PC is pushed, unless the stack is bounded and full: then `STACK_OVERFLOW`. -/
def Obligations.CallPushesOrOverflows : Prop :=
  ∀ (nnn : Addr12) (s : State), Encoded (0x2000 + nnn.toNat) (.call nnn) ∧
    if s.cfg.stackOverflow = .fault ∧ s.sp = 16 then Faults (.call nnn) s (.stackOverflow 16 s.pc)
    else ∃ t, exec (.call nnn) s = .next t ∧ t.stack = s.stack ++ [s.pc] ∧ t.sp = s.sp + 1 ∧ t.pc.toNat = nnn.toNat ∧
      UnchangedBut (Part.among [.pc, .stack]) s t

/-- R124 with R132: the most recent entry comes back; an empty stack gives PC = 0 or `STACK_UNDERFLOW`. -/
def Obligations.ReturnPops : Prop :=
  Encoded 0x00EE .ret ∧
  ∀ s : State,
    (∀ l a, s.stack = l ++ [a] → ∃ t, exec .ret s = .next t ∧ t.stack = l ∧ t.pc = a ∧ s.sp = t.sp + 1 ∧
      UnchangedBut (Part.among [.pc, .stack]) s t) ∧
    (s.stack = [] → s.cfg.emptyReturn = .pcZero → ∃ t, exec .ret s = .next t ∧ t.pc.toNat = 0 ∧ t.sp = 0 ∧
      UnchangedBut (Part.among [.pc]) s t) ∧
    (s.stack = [] → s.cfg.emptyReturn = .fault → Faults .ret s .stackUnderflow)

/-- R133: last in, first out: whatever the called code did to the rest of the state, a return with the stack as the call left it
comes back to the word after the call, with the stack as before. -/
def Obligations.CallThenReturn : Prop :=
  ∀ (nnn : Addr12) (s t u : State), exec (.call nnn) s = .next t → t.run = s.run → s.run = .running → u.stack = t.stack →
    ∃ r, exec .ret u = .next r ∧ r.pc = s.pc ∧ r.stack = s.stack

/-- R125, R126: a further 2 when the condition on the immediate holds; VF is a register like any other. -/
def Obligations.SkipOnImmediate : Prop :=
  ∀ (x : Reg) (nn : Byte) (s : State),
    Encoded (0x3000 + 256 * x.toNat + nn.toNat) (.seImm x nn) ∧ Encoded (0x4000 + 256 * x.toNat + nn.toNat) (.sneImm x nn) ∧
    (∃ t, exec (.seImm x nn) s = .next t ∧ t.pc = (if s.getV x = nn then s.pc + 2#16 else s.pc) ∧
      UnchangedBut (Part.among [.pc]) s t) ∧
    (∃ t, exec (.sneImm x nn) s = .next t ∧ t.pc = (if s.getV x = nn then s.pc else s.pc + 2#16) ∧
      UnchangedBut (Part.among [.pc]) s t)

/-- R127, R128: a further 2 when the condition on the two registers holds, for every low nibble (the spec's own decision D9, log
entry 17). -/
def Obligations.SkipOnRegisters : Prop :=
  ∀ (x y n : Reg) (s : State),
    Encoded (0x5000 + 256 * x.toNat + 16 * y.toNat + n.toNat) (.seReg x y) ∧
    Encoded (0x9000 + 256 * x.toNat + 16 * y.toNat + n.toNat) (.sneReg x y) ∧
    (∃ t, exec (.seReg x y) s = .next t ∧ t.pc = (if s.getV x = s.getV y then s.pc + 2#16 else s.pc) ∧
      UnchangedBut (Part.among [.pc]) s t) ∧
    (∃ t, exec (.sneReg x y) s = .next t ∧ t.pc = (if s.getV x = s.getV y then s.pc else s.pc + 2#16) ∧
      UnchangedBut (Part.among [.pc]) s t)

/-- R129, where admitted; the sum never wraps. -/
def Obligations.JumpPlusV0 : Prop :=
  ∀ (nnn : Addr12) (s : State), Encoded (0xB000 + nnn.toNat) (.jpV0 nnn) ∧
    if s.cfg.admitGkOps = true then
      ∃ t, exec (.jpV0 nnn) s = .next t ∧ t.pc.toNat = nnn.toNat + (s.getV 0#4).toNat ∧ UnchangedBut (Part.among [.pc]) s t
    else ∃ t, exec (.jpV0 nnn) s = .next t ∧ t.refused ≠ none ∧ t.pc = s.pc - 2#16 ∧
      UnchangedBut (Part.among [.pc, .refused]) s t

/-- R130, for every 12-bit nnn but those of `CLS` and `RET`. -/
def Obligations.SysIsDiagnosedNoOp : Prop :=
  ∀ (nnn : Addr12) (s : State), nnn.toNat ≠ 0x0E0 → nnn.toNat ≠ 0x0EE →
    Encoded nnn.toNat (.sys nnn) ∧
    ∃ t, exec (.sys nnn) s = .next t ∧ t.diagOut = s.diagOut ++ [⟨BitVec.ofNat 16 nnn.toNat, s.pc - 2#16⟩] ∧
      UnchangedBut (Part.among [.diagOut]) s t

/-! ### Register loads and arithmetic -/

/-- R152, R153: the immediate is loaded, or added mod 256 with no flag. -/
def Obligations.ImmediateLoadAndAdd : Prop :=
  ∀ (x : Reg) (nn : Byte) (s : State),
    Encoded (0x6000 + 256 * x.toNat + nn.toNat) (.ldImm x nn) ∧ Encoded (0x7000 + 256 * x.toNat + nn.toNat) (.addImm x nn) ∧
    (∃ t, exec (.ldImm x nn) s = .next t ∧ t.getV x = nn ∧ UnchangedBut (Part.among [.v x]) s t) ∧
    (∃ t, exec (.addImm x nn) s = .next t ∧ (t.getV x).toNat = ((s.getV x).toNat + nn.toNat) % 256 ∧
      UnchangedBut (Part.among [.v x]) s t)

/-- R154, where admitted, and refused otherwise. -/
def Obligations.CopyRegister : Prop :=
  ∀ (x y : Reg) (s : State), Encoded (0x8000 + 256 * x.toNat + 16 * y.toNat) (.ldReg x y) ∧
    if s.cfg.admitGkOps = true then
      ∃ t, exec (.ldReg x y) s = .next t ∧ t.getV x = s.getV y ∧ UnchangedBut (Part.among [.v x]) s t
    else ∃ t, exec (.ldReg x y) s = .next t ∧ t.refused ≠ none ∧ t.pc = s.pc - 2#16 ∧
      UnchangedBut (Part.among [.pc, .refused]) s t

/-- R155, R156, R157 with R151: the bitwise result in Vx, then VF by `logic_vf`; under `any` VF is the next free draw. -/
def Obligations.LogicOperations : Prop :=
  ∀ (x y : Reg) (s : State) (i : Instr) (r : Byte),
    (i = .orReg x y ∧ (∀ k, r.getLsbD k = ((s.getV x).getLsbD k || (s.getV y).getLsbD k)) ∨
     i = .andReg x y ∧ (∀ k, r.getLsbD k = ((s.getV x).getLsbD k && (s.getV y).getLsbD k)) ∨
     i = .xorReg x y ∧ (∀ k, r.getLsbD k = ((s.getV x).getLsbD k != (s.getV y).getLsbD k))) →
    Encoded (0x8000 + 256 * x.toNat + 16 * y.toNat + (match i with | .orReg _ _ => 1 | .andReg _ _ => 2 | _ => 3)) i ∧
    ∃ t, exec i s = .next t ∧ (x ≠ vf → t.getV x = r) ∧
      (match s.cfg.logicVf with
       | .zero => (t.getV vf).toNat = 0 ∧ t.draws = s.draws
       | .preserve => t.getV vf = (if x = vf then r else s.getV vf) ∧ t.draws = s.draws
       | .any => t.getV vf = Config.draw8 s.draws ∧ t.draws = s.draws + 1) ∧
      UnchangedBut (Part.among [.v x, .v vf, .draws]) s t

/-- R158: the sum mod 256, then VF = 1 exactly on carry; VF is the flag even when x = F. -/
def Obligations.AddSetsCarry : Prop :=
  ∀ (x y : Reg) (s : State), Encoded (0x8004 + 256 * x.toNat + 16 * y.toNat) (.addReg x y) ∧
    ∃ t, exec (.addReg x y) s = .next t ∧
      (x ≠ vf → (t.getV x).toNat = ((s.getV x).toNat + (s.getV y).toNat) % 256) ∧
      (t.getV vf).toNat = (if (s.getV x).toNat + (s.getV y).toNat > 255 then 1 else 0) ∧
      UnchangedBut (Part.among [.v x, .v vf]) s t

/-- R159 and R161: the difference mod 256 in Vx, VF = 1 exactly when nothing is borrowed. -/
def Obligations.SubtractionsSetNotBorrow : Prop :=
  ∀ (x y : Reg) (s : State),
    Encoded (0x8005 + 256 * x.toNat + 16 * y.toNat) (.subReg x y) ∧ Encoded (0x8007 + 256 * x.toNat + 16 * y.toNat) (.subn x y) ∧
    (∃ t, exec (.subReg x y) s = .next t ∧
      (x ≠ vf → ((t.getV x).toNat : Int) = ((s.getV x).toNat - (s.getV y).toNat : Int) % 256) ∧
      (t.getV vf).toNat = (if (s.getV x).toNat ≥ (s.getV y).toNat then 1 else 0) ∧
      UnchangedBut (Part.among [.v x, .v vf]) s t) ∧
    (∃ t, exec (.subn x y) s = .next t ∧
      (x ≠ vf → ((t.getV x).toNat : Int) = ((s.getV y).toNat - (s.getV x).toNat : Int) % 256) ∧
      (t.getV vf).toNat = (if (s.getV y).toNat ≥ (s.getV x).toNat then 1 else 0) ∧
      UnchangedBut (Part.among [.v x, .v vf]) s t)

/-- R160 and R162: Vy shifted by one into Vx, VF exactly the bit shifted out. -/
def Obligations.ShiftsReadVy : Prop :=
  ∀ (x y : Reg) (s : State),
    Encoded (0x8006 + 256 * x.toNat + 16 * y.toNat) (.shr x y) ∧ Encoded (0x800E + 256 * x.toNat + 16 * y.toNat) (.shl x y) ∧
    (∃ t, exec (.shr x y) s = .next t ∧ (x ≠ vf → (t.getV x).toNat = (s.getV y).toNat / 2) ∧
      (t.getV vf).toNat = (s.getV y).toNat % 2 ∧ UnchangedBut (Part.among [.v x, .v vf]) s t) ∧
    (∃ t, exec (.shl x y) s = .next t ∧ (x ≠ vf → (t.getV x).toNat = 2 * (s.getV y).toNat % 256) ∧
      (t.getV vf).toNat = (s.getV y).toNat / 128 ∧ UnchangedBut (Part.among [.v x, .v vf]) s t)

/-- R163, where admitted: some byte, the next free draw, and the mask; a zero mask is the only determined case. -/
def Obligations.RandomIsMaskedDraw : Prop :=
  ∀ (x : Reg) (nn : Byte) (s : State), Encoded (0xC000 + 256 * x.toNat + nn.toNat) (.rnd x nn) ∧
    if s.cfg.admitGkOps = true then
      ∃ t, exec (.rnd x nn) s = .next t ∧ (∀ k, (t.getV x).getLsbD k = ((Config.draw8 s.draws).getLsbD k && nn.getLsbD k)) ∧
        (nn.toNat = 0 → (t.getV x).toNat = 0) ∧ t.draws = s.draws + 1 ∧ UnchangedBut (Part.among [.v x, .draws]) s t
    else ∃ t, exec (.rnd x nn) s = .next t ∧ t.refused ≠ none ∧ t.pc = s.pc - 2#16 ∧
      UnchangedBut (Part.among [.pc, .refused]) s t

/-! ### Index register and memory transfers -/

/-- R180: I is the zero-extended address. -/
def Obligations.IndexLoad : Prop :=
  ∀ (nnn : Addr12) (s : State), Encoded (0xA000 + nnn.toNat) (.ldI nnn) ∧
    ∃ t, exec (.ldI nnn) s = .next t ∧ t.i.toNat = nnn.toNat ∧ UnchangedBut (Part.among [.i]) s t

/-- R181: I + Vx mod 65536, never masked to 12 bits; VF is not written (the spec's own decision D35, log entry 18). -/
def Obligations.IndexAdd : Prop :=
  ∀ (x : Reg) (s : State), Encoded (0xF01E + 256 * x.toNat) (.addIVx x) ∧
    ∃ t, exec (.addIVx x) s = .next t ∧ t.i.toNat = (s.i.toNat + (s.getV x).toNat) % 65536 ∧
      UnchangedBut (Part.among [.i]) s t

/-- R182, where admitted: the glyph of the low nibble. -/
def Obligations.FontAddressOfDigit : Prop :=
  ∀ (x : Reg) (s : State), Encoded (0xF029 + 256 * x.toNat) (.ldFVx x) ∧
    if s.cfg.admitGkOps = true then
      ∃ t, exec (.ldFVx x) s = .next t ∧ t.i.toNat = s.cfg.fontBase.val + 5 * ((s.getV x).toNat % 16) ∧
        UnchangedBut (Part.among [.i]) s t
    else ∃ t, exec (.ldFVx x) s = .next t ∧ t.refused ≠ none ∧ t.pc = s.pc - 2#16 ∧
      UnchangedBut (Part.among [.pc, .refused]) s t

/-- R183: three decimal digits at I, hundreds first, each 0 to 9, or `MEM_OUT_OF_RANGE`; I is not changed. -/
def Obligations.DecimalDigitsStored : Prop :=
  ∀ (x : Reg) (s : State), Encoded (0xF033 + 256 * x.toNat) (.ldBVx x) ∧
    if s.i.toNat + 3 ≤ 4096 then
      ∃ t, exec (.ldBVx x) s = .next t ∧
        (∃ h d u : Nat, (t.readByte s.i.toNat).toNat = h ∧ (t.readByte (s.i.toNat + 1)).toNat = d ∧
          (t.readByte (s.i.toNat + 2)).toNat = u ∧ 100 * h + 10 * d + u = (s.getV x).toNat ∧ h ≤ 2 ∧ d ≤ 9 ∧ u ≤ 9) ∧
        UnchangedBut (Part.inBlock s.i.toNat 3) s t
    else Faults (.ldBVx x) s (.memOutOfRange s.i.toNat 3)

/-- R184 with R186: V0..Vx at I, then I advanced under `ldst_inc_i`, or `MEM_OUT_OF_RANGE` and nothing written. -/
def Obligations.RegisterDump : Prop :=
  ∀ (x : Reg) (s : State), Encoded (0xF055 + 256 * x.toNat) (.ldMemVx x) ∧
    if s.i.toNat + (x.toNat + 1) ≤ 4096 then
      ∃ t, exec (.ldMemVx x) s = .next t ∧
        (∀ r : Reg, r.toNat ≤ x.toNat → t.readByte (s.i.toNat + r.toNat) = s.getV r) ∧
        t.i.toNat = (if s.cfg.ldstIncI = true then (s.i.toNat + x.toNat + 1) % 65536 else s.i.toNat) ∧
        UnchangedBut (fun p => p = .i ∨ Part.inBlock s.i.toNat (x.toNat + 1) p) s t
    else Faults (.ldMemVx x) s (.memOutOfRange s.i.toNat (x.toNat + 1))

/-- R185 with R186: V0..Vx from I, registers above x unchanged, then I advanced under `ldst_inc_i`, or `MEM_OUT_OF_RANGE`. -/
def Obligations.RegisterLoadFromMemory : Prop :=
  ∀ (x : Reg) (s : State), Encoded (0xF065 + 256 * x.toNat) (.ldVxMem x) ∧
    if s.i.toNat + (x.toNat + 1) ≤ 4096 then
      ∃ t, exec (.ldVxMem x) s = .next t ∧
        (∀ r : Reg, r.toNat ≤ x.toNat → t.getV r = s.readByte (s.i.toNat + r.toNat)) ∧
        t.i.toNat = (if s.cfg.ldstIncI = true then (s.i.toNat + x.toNat + 1) % 65536 else s.i.toNat) ∧
        UnchangedBut (fun p => p = .i ∨ ∃ r : Reg, r.toNat ≤ x.toNat ∧ p = .v r) s t
    else Faults (.ldVxMem x) s (.memOutOfRange s.i.toNat (x.toNat + 1))

/-- R62, R63, R65: a block write succeeds exactly inside memory; a read then gives the bytes written, and every byte outside the
block, and everything else, is as before. -/
def Obligations.BlockWriteThenRead : Prop :=
  ∀ (s : State) (a : Nat) (bs : List Byte),
    if a + bs.length ≤ 4096 then
      ∃ t, memWrite s a bs = .ok t ∧ memRead t a bs.length = .ok bs ∧ UnchangedBut (Part.inBlock a bs.length) s t
    else memWrite s a bs = .error (.memOutOfRange a bs.length) ∧ memRead s a bs.length = .error (.memOutOfRange a bs.length)

/-- R75: a store by `Fx55` is fetched as written by the next step, here from the address it stored to. -/
def Obligations.StoreIsFetchedByNextStep : Prop :=
  ∀ (x : Reg) (s t : State) (i : Instr), 1 ≤ x.toNat → s.i.toNat + (x.toNat + 1) ≤ 4096 → s.Safe →
    exec (.ldMemVx x) s = .next t → Encoded ((s.getV 0#4).toNat * 256 + (s.getV 1#4).toNat) i →
    step { t with pc := s.i } = exec i { t with pc := s.i + 2#16, stepped := true }

/-! ### Framebuffer -/

/-- R212. -/
def Obligations.ClearScreen : Prop :=
  Encoded 0x00E0 .cls ∧
  ∀ s : State, ∃ t, exec .cls s = .next t ∧ (∀ cx cy, getPixel t.fb cx cy = false) ∧ UnchangedBut Part.isPixel s t

/-- R213, R214, R215: exactly the pixels under a 1 bit of the sprite are inverted, coordinates wrapping, and VF is 1 exactly when
one of them was set; or `MEM_OUT_OF_RANGE` with nothing drawn. -/
def Obligations.DrawInvertsCoveredPixels : Prop :=
  ∀ (x y : Reg) (n : Nib) (s : State), Encoded (0xD000 + 256 * x.toNat + 16 * y.toNat + n.toNat) (.drw x y n) ∧
    if s.i.toNat + n.toNat ≤ 4096 then
      ∃ t, exec (.drw x y n) s = .next t ∧
        (∀ cx cy, getPixel t.fb cx cy ≠ getPixel s.fb cx cy ↔ Covers s (s.getV x).toNat (s.getV y).toNat n.toNat cx cy) ∧
        ((∃ cx cy, Covers s (s.getV x).toNat (s.getV y).toNat n.toNat cx cy ∧ getPixel s.fb cx cy = true) →
          (t.getV vf).toNat = 1) ∧
        ((∀ cx cy, Covers s (s.getV x).toNat (s.getV y).toNat n.toNat cx cy → getPixel s.fb cx cy = false) →
          (t.getV vf).toNat = 0) ∧
        UnchangedBut (fun p => p = .v vf ∨ p.isPixel) s t
    else Faults (.drw x y n) s (.memOutOfRange s.i.toNat n.toNat)

/-- W5 of 95_test_vectors, from R213 and R214: the same sprite drawn twice restores the framebuffer, and the second draw reports a
collision exactly when the first had set a pixel. -/
def Obligations.DrawTwiceRestores : Prop :=
  ∀ (x y : Reg) (n : Nib) (s t : State), x ≠ vf → y ≠ vf → s.i.toNat + n.toNat ≤ 4096 → exec (.drw x y n) s = .next t →
    ∃ u, exec (.drw x y n) t = .next u ∧ u.fb = s.fb ∧
      ((u.getV vf).toNat = 1 ↔ ∃ cx cy, getPixel s.fb cx cy = false ∧ getPixel t.fb cx cy = true)

/-! ### Keys and timers -/

/-- R248, R249 with R242: skip on the key's state; a value above 0xF is `INVALID_KEY`, never masked. -/
def Obligations.KeySkips : Prop :=
  ∀ (x : Reg) (s : State),
    Encoded (0xE09E + 256 * x.toNat) (.skp x) ∧ Encoded (0xE0A1 + 256 * x.toNat) (.sknp x) ∧
    (∀ k : Key, k.toNat = (s.getV x).toNat →
      (∃ t, exec (.skp x) s = .next t ∧ t.pc = (if s.getKey k = true then s.pc + 2#16 else s.pc) ∧
        UnchangedBut (Part.among [.pc]) s t) ∧
      (∃ t, exec (.sknp x) s = .next t ∧ t.pc = (if s.getKey k = true then s.pc else s.pc + 2#16) ∧
        UnchangedBut (Part.among [.pc]) s t)) ∧
    (0x0F < (s.getV x).toNat → Faults (.skp x) s (.invalidKey (s.getV x)) ∧ Faults (.sknp x) s (.invalidKey (s.getV x)))

/-- R251 with R244, R245: a resolved key is taken and the wait ends; otherwise the wait is armed and PC goes back to this
instruction. -/
def Obligations.KeyWait : Prop :=
  ∀ (x : Reg) (s : State), Encoded (0xF00A + 256 * x.toNat) (.ldVxK x) ∧
    (∀ k : Key, s.waitedKey = some k →
      ∃ t, exec (.ldVxK x) s = .next t ∧ (t.getV x).toNat = k.toNat ∧ t.waitArmed = false ∧ t.waitedKey = none ∧
        UnchangedBut (Part.among [.v x, .waitArmed, .waitedKey]) s t) ∧
    (s.waitedKey = none →
      ∃ t, exec (.ldVxK x) s = .next t ∧ t.waitArmed = true ∧ t.waitedKey = none ∧ t.pc + 2#16 = s.pc ∧
        UnchangedBut (Part.among [.pc, .waitArmed]) s t)

/-- R251 with R240, R241 and R246, over four transactions: `Fx0A` with nothing pending waits at its own address; the press and
then the release of any key resolve the wait; the next step, which runs the same `Fx0A`, writes that key into Vx and goes on. -/
def Obligations.KeyWaitResolvedByRelease : Prop :=
  ∀ (x : Reg) (k : Key) (s : State), s.Safe → s.pc.toNat + 2 ≤ 4096 → decode (wordAt s s.pc.toNat) = .instr (.ldVxK x) →
    s.waitedKey = none →
    (∃ t, transactAll [.step, .keyPress k] s = .next t ∧ t.pc = s.pc ∧ t.waitArmed = true ∧ t.waitedKey = none) ∧
    ∃ t, transactAll [.step, .keyPress k, .keyRelease k, .step] s = .next t ∧ (t.getV x).toNat = k.toNat ∧
      t.pc.toNat = s.pc.toNat + 2 ∧ t.waitArmed = false ∧ t.waitedKey = none ∧ t.getKey k = false ∧
      UnchangedBut (Part.among [.v x, .pc, .waitArmed, .key k, .stepped]) s t

/-- R252, R253, R254. -/
def Obligations.TimerTransfers : Prop :=
  ∀ (x : Reg) (s : State),
    Encoded (0xF007 + 256 * x.toNat) (.ldVxDt x) ∧ Encoded (0xF015 + 256 * x.toNat) (.ldDtVx x) ∧
    Encoded (0xF018 + 256 * x.toNat) (.ldStVx x) ∧
    (∃ t, exec (.ldVxDt x) s = .next t ∧ t.getV x = s.dt ∧ UnchangedBut (Part.among [.v x]) s t) ∧
    (∃ t, exec (.ldDtVx x) s = .next t ∧ t.dt = s.getV x ∧ UnchangedBut (Part.among [.dt]) s t) ∧
    (∃ t, exec (.ldStVx x) s = .next t ∧ t.st = s.getV x ∧ UnchangedBut (Part.among [.st]) s t)

/-- R240, R241, and the key rows of R246: a press only sets the key; the release of a pressed key ends an armed wait with that
key; every other release only clears the key. -/
def Obligations.KeyEvents : Prop :=
  ∀ (k : Key) (s : State), s.Safe →
    (∃ t, keyPress k s = .next t ∧ t.getKey k = true ∧ UnchangedBut (Part.among [.key k]) s t) ∧
    (∃ t, keyRelease k s = .next t ∧ t.getKey k = false ∧
      if s.waitArmed = true ∧ s.getKey k = true then
        t.waitedKey = some k ∧ t.waitArmed = false ∧ UnchangedBut (Part.among [.key k, .waitArmed, .waitedKey]) s t
      else UnchangedBut (Part.among [.key k]) s t)

/-- R250: both timers lose 1, saturating at 0, and nothing else changes. -/
def Obligations.TickDecrementsBothTimers : Prop :=
  ∀ s : State, s.Safe → ∃ t, timerTick s = .next t ∧ t.dt.toNat = s.dt.toNat - 1 ∧ t.st.toNat = s.st.toNat - 1 ∧
    UnchangedBut (Part.among [.dt, .st]) s t

/-! ### Reset and program load -/

/-- R311 with R310 and R314: every field after `reset()`, from any state; memory is zero but for the font, whose 80 bytes are the
16 rows of R187's table. -/
def Obligations.ResetValues : Prop :=
  (font.length = 80 ∧ font =
    [0xF0#8, 0x90#8, 0x90#8, 0x90#8, 0xF0#8] ++ [0x20#8, 0x60#8, 0x20#8, 0x20#8, 0x70#8] ++
    [0xF0#8, 0x10#8, 0xF0#8, 0x80#8, 0xF0#8] ++ [0xF0#8, 0x10#8, 0xF0#8, 0x10#8, 0xF0#8] ++
    [0x90#8, 0x90#8, 0xF0#8, 0x10#8, 0x10#8] ++ [0xF0#8, 0x80#8, 0xF0#8, 0x10#8, 0xF0#8] ++
    [0xF0#8, 0x80#8, 0xF0#8, 0x90#8, 0xF0#8] ++ [0xF0#8, 0x10#8, 0x20#8, 0x40#8, 0x40#8] ++
    [0xF0#8, 0x90#8, 0xF0#8, 0x90#8, 0xF0#8] ++ [0xF0#8, 0x90#8, 0xF0#8, 0x10#8, 0xF0#8] ++
    [0xF0#8, 0x90#8, 0xF0#8, 0x90#8, 0x90#8] ++ [0xE0#8, 0x90#8, 0xE0#8, 0x90#8, 0xE0#8] ++
    [0xF0#8, 0x80#8, 0x80#8, 0x80#8, 0xF0#8] ++ [0xE0#8, 0x90#8, 0x90#8, 0x90#8, 0xE0#8] ++
    [0xF0#8, 0x80#8, 0xF0#8, 0x80#8, 0xF0#8] ++ [0xF0#8, 0x80#8, 0xF0#8, 0x80#8, 0x80#8]) ∧
  ∀ s : State, ∃ t, transact .reset s = .next t ∧ t.pc.toNat = 0x200 ∧ (∀ cx cy, getPixel t.fb cx cy = false) ∧
    (∀ x, (t.getV x).toNat = 0) ∧ t.i.toNat = 0 ∧ t.stack = [] ∧ t.sp = 0 ∧ t.dt.toNat = 0 ∧ t.st.toNat = 0 ∧
    (∀ a, a < 4096 → t.readByte a =
      if s.cfg.admitGkOps = true ∧ s.cfg.fontBase.val ≤ a ∧ a < s.cfg.fontBase.val + 80
      then font.getD (a - s.cfg.fontBase.val) 0#8 else 0#8) ∧
    (∀ k, t.getKey k = false) ∧ t.waitArmed = false ∧ t.waitedKey = none ∧ t.run = .running ∧ t.diagOut = [] ∧
    t.refused = s.refused

/-- R312: two resets in a row leave what one leaves, and reset forgets everything but the configuration, the mark and the count
of draws. -/
def Obligations.ResetIsIdempotent : Prop :=
  (∀ s t u : State, transact .reset s = .next t → transact .reset t = .next u → u = t) ∧
  (∀ s s' : State, s.cfg = s'.cfg → s.refused = s'.refused → s.draws = s'.draws → resetBlock s = resetBlock s')

/-- R315, R316: between a reset and the first step, an image of at most 3584 bytes is written at 0x200 and nothing else changes; a
longer one changes nothing; later there is no such move (the spec's own decision D24; launch bit and refusal: log entries 6, 13). -/
def Obligations.ProgramLoad : Prop :=
  ∀ (image : List Byte) (s : State),
    (s.stepped = false → image.length ≤ 3584 →
      ∃ t, loadProgram image s = .next t ∧ (∀ j, (h : j < image.length) → t.readByte (0x200 + j) = image[j]) ∧
        UnchangedBut (Part.inBlock 0x200 image.length) s t) ∧
    (s.stepped = false → 3584 < image.length → loadProgram image s = .next s) ∧
    (s.stepped = true → loadProgram image s = .refused .loadAfterFirstStep)
end

