-- ==== Sys2Proof/Laws/Decode.lean ====
section
/-! SUPPORT. Words and their fields as numbers (spec 30_encoding R92, R93), and the bytes of a word (20_memory R66). -/

namespace Sys2Proof

theorem append_toNat {m n : Nat} (a : BitVec m) (b : BitVec n) : (a ++ b).toNat = a.toNat * 2 ^ n + b.toNat := by
  rw [BitVec.toNat_append, ← Nat.shiftLeft_add_eq_or_of_lt b.isLt, Nat.shiftLeft_eq]

section Fields
variable (op : Nib) (x y : Reg) (n : Nib) (nn : Byte) (nnn : Addr12) (w : Word)

theorem fieldOp_toNat : (fieldOp w).toNat = w.toNat / 4096 := by
  have := w.isLt
  simp only [fieldOp, BitVec.extractLsb'_toNat, Nat.shiftRight_eq_div_pow]
  omega

theorem fieldX_toNat : (fieldX w).toNat = w.toNat / 256 % 16 := by
  simp only [fieldX, BitVec.extractLsb'_toNat, Nat.shiftRight_eq_div_pow]

theorem fieldY_toNat : (fieldY w).toNat = w.toNat / 16 % 16 := by
  simp only [fieldY, BitVec.extractLsb'_toNat, Nat.shiftRight_eq_div_pow]

theorem fieldN_toNat : (fieldN w).toNat = w.toNat % 16 := by
  simp only [fieldN, BitVec.extractLsb'_toNat, Nat.shiftRight_zero]

theorem fieldNN_toNat : (fieldNN w).toNat = w.toNat % 256 := by
  simp only [fieldNN, BitVec.extractLsb'_toNat, Nat.shiftRight_zero]

theorem fieldNNN_toNat : (fieldNNN w).toNat = w.toNat % 4096 := by
  simp only [fieldNNN, BitVec.extractLsb'_toNat, Nat.shiftRight_zero]

theorem formatFA_toNat : (formatFA op nnn).toNat = op.toNat * 4096 + nnn.toNat := append_toNat op nnn

theorem formatFXNN_toNat : (formatFXNN op x nn).toNat = op.toNat * 4096 + x.toNat * 256 + nn.toNat := by
  have h : (formatFXNN op x nn).toNat = (op ++ x).toNat * 2 ^ 8 + nn.toNat := append_toNat _ nn
  rw [h, append_toNat]
  omega

theorem formatFXYN_toNat : (formatFXYN op x y n).toNat = op.toNat * 4096 + x.toNat * 256 + y.toNat * 16 + n.toNat := by
  have h : (formatFXYN op x y n).toNat = (op ++ x ++ y).toNat * 2 ^ 4 + n.toNat := append_toNat _ n
  rw [h, append_toNat, append_toNat]
  omega

/-- Format FX is format FXNN with the selector as its low byte. -/
theorem formatFX_eq : formatFX op x nn = formatFXNN op x nn := rfl

@[simp] theorem fieldOp_formatFA : fieldOp (formatFA op nnn) = op := by
  have := nnn.isLt
  apply BitVec.eq_of_toNat_eq
  rw [fieldOp_toNat, formatFA_toNat]
  omega

@[simp] theorem fieldNNN_formatFA : fieldNNN (formatFA op nnn) = nnn := by
  have := nnn.isLt
  apply BitVec.eq_of_toNat_eq
  rw [fieldNNN_toNat, formatFA_toNat]
  omega

@[simp] theorem fieldOp_formatFXNN : fieldOp (formatFXNN op x nn) = op := by
  have := x.isLt
  have := nn.isLt
  apply BitVec.eq_of_toNat_eq
  rw [fieldOp_toNat, formatFXNN_toNat]
  omega

@[simp] theorem fieldX_formatFXNN : fieldX (formatFXNN op x nn) = x := by
  have := x.isLt
  have := nn.isLt
  apply BitVec.eq_of_toNat_eq
  rw [fieldX_toNat, formatFXNN_toNat]
  omega

@[simp] theorem fieldNN_formatFXNN : fieldNN (formatFXNN op x nn) = nn := by
  have := nn.isLt
  apply BitVec.eq_of_toNat_eq
  rw [fieldNN_toNat, formatFXNN_toNat]
  omega

@[simp] theorem fieldOp_formatFXYN : fieldOp (formatFXYN op x y n) = op := by
  have := x.isLt
  have := y.isLt
  have := n.isLt
  apply BitVec.eq_of_toNat_eq
  rw [fieldOp_toNat, formatFXYN_toNat]
  omega

@[simp] theorem fieldX_formatFXYN : fieldX (formatFXYN op x y n) = x := by
  have := x.isLt
  have := y.isLt
  have := n.isLt
  apply BitVec.eq_of_toNat_eq
  rw [fieldX_toNat, formatFXYN_toNat]
  omega

@[simp] theorem fieldY_formatFXYN : fieldY (formatFXYN op x y n) = y := by
  have := y.isLt
  have := n.isLt
  apply BitVec.eq_of_toNat_eq
  rw [fieldY_toNat, formatFXYN_toNat]
  omega

@[simp] theorem fieldN_formatFXYN : fieldN (formatFXYN op x y n) = n := by
  have := n.isLt
  apply BitVec.eq_of_toNat_eq
  rw [fieldN_toNat, formatFXYN_toNat]
  omega

end Fields

/-- Big-endian: the byte at the lower address counts 256 (R66). -/
theorem wordOfBytes_toNat (hi lo : Byte) : (wordOfBytes hi lo).toNat = hi.toNat * 256 + lo.toNat := append_toNat hi lo

theorem highByte_toNat (w : Word) : (highByte w).toNat = w.toNat / 256 := by
  have := w.isLt
  simp only [highByte, BitVec.extractLsb'_toNat, Nat.shiftRight_eq_div_pow]
  omega

theorem lowByte_toNat (w : Word) : (lowByte w).toNat = w.toNat % 256 := by
  simp only [lowByte, BitVec.extractLsb'_toNat, Nat.shiftRight_zero]

@[simp] theorem wordOfBytes_bytes (w : Word) : wordOfBytes (highByte w) (lowByte w) = w := by
  apply BitVec.eq_of_toNat_eq
  rw [wordOfBytes_toNat, highByte_toNat, lowByte_toNat]
  omega

@[simp] theorem highByte_wordOfBytes (hi lo : Byte) : highByte (wordOfBytes hi lo) = hi := by
  have := lo.isLt
  apply BitVec.eq_of_toNat_eq
  rw [highByte_toNat, wordOfBytes_toNat]
  omega

@[simp] theorem lowByte_wordOfBytes (hi lo : Byte) : lowByte (wordOfBytes hi lo) = lo := by
  have := lo.isLt
  apply BitVec.eq_of_toNat_eq
  rw [lowByte_toNat, wordOfBytes_toNat]
  omega

/-! ### What each family of the decoder can answer (R95, R96): one lemma per function, the arms as equations on the word's number -/

/-- A 16-bit word is its number. -/
theorem eq_iff_toNat {m : Nat} (a b : BitVec m) : a = b ↔ a.toNat = b.toNat := BitVec.toNat_inj.symm

/-- Every word from a format FXYN is rebuilt from its fields. -/
theorem formatFXYN_fields (w : Word) : formatFXYN (fieldOp w) (fieldX w) (fieldY w) (fieldN w) = w := by
  have := w.isLt
  apply BitVec.eq_of_toNat_eq
  rw [formatFXYN_toNat, fieldOp_toNat, fieldX_toNat, fieldY_toNat, fieldN_toNat]
  omega

/-- Every word from a format FXNN is rebuilt from its fields. -/
theorem formatFXNN_fields (w : Word) : formatFXNN (fieldOp w) (fieldX w) (fieldNN w) = w := by
  have := w.isLt
  apply BitVec.eq_of_toNat_eq
  rw [formatFXNN_toNat, fieldOp_toNat, fieldX_toNat, fieldNN_toNat]
  omega

/-- Every word from a format FA is rebuilt from its fields. -/
theorem formatFA_fields (w : Word) : formatFA (fieldOp w) (fieldNNN w) = w := by
  have := w.isLt
  apply BitVec.eq_of_toNat_eq
  rw [formatFA_toNat, fieldOp_toNat, fieldNNN_toNat]
  omega

theorem decodeFamily0_cases (w : Word) (h : fieldOp w = 0x0#4) :
    ∃ i, decodeFamily0 w = .instr i ∧ encode i = w ∧ i.wellFormed = true := by
  unfold decodeFamily0
  split
  · next hw => exact ⟨.cls, rfl, hw.symm, rfl⟩
  · next hc =>
    split
    · next hw => exact ⟨.ret, rfl, hw.symm, rfl⟩
    · next hr =>
      have hw : formatFA 0x0#4 (fieldNNN w) = w := by rw [← h]; exact formatFA_fields w
      refine ⟨_, rfl, hw, ?_⟩
      simp only [Instr.wellFormed, Bool.and_eq_true, bne_iff_ne, ne_eq]
      exact ⟨fun he => hc (by rw [← hw, he]; rfl), fun he => hr (by rw [← hw, he]; rfl)⟩

theorem decodeFamily8_cases (w : Word) (h : fieldOp w = 0x8#4) :
    (∃ i, decodeFamily8 w = .instr i ∧ encode i = w ∧ i.wellFormed = true) ∨
    (decodeFamily8 w = .unmatched w ∧ fieldN w ∉ [0x0#4, 0x1#4, 0x2#4, 0x3#4, 0x4#4, 0x5#4, 0x6#4, 0x7#4, 0xE#4]) := by
  have hw := formatFXYN_fields w
  rw [h] at hw
  by_cases hn : fieldN w ∈ [0x0#4, 0x1#4, 0x2#4, 0x3#4, 0x4#4, 0x5#4, 0x6#4, 0x7#4, 0xE#4]
  · simp only [List.mem_cons, List.not_mem_nil, or_false] at hn
    left
    rcases hn with e | e | e | e | e | e | e | e | e <;> rw [e] at hw <;> simp only [decodeFamily8, e] <;>
      exact ⟨_, rfl, hw, rfl⟩
  · right
    refine ⟨?_, hn⟩
    simp only [List.mem_cons, List.not_mem_nil, or_false, not_or] at hn
    simp [decodeFamily8, hn]

theorem decodeFamilyE_cases (w : Word) (h : fieldOp w = 0xE#4) :
    (∃ i, decodeFamilyE w = .instr i ∧ encode i = w ∧ i.wellFormed = true) ∨
    (decodeFamilyE w = .unmatched w ∧ fieldNN w ∉ [0x9E#8, 0xA1#8]) := by
  have hw := formatFXNN_fields w
  rw [h] at hw
  by_cases hn : fieldNN w ∈ [0x9E#8, 0xA1#8]
  · simp only [List.mem_cons, List.not_mem_nil, or_false] at hn
    left
    rcases hn with e | e <;> rw [e] at hw <;> simp only [decodeFamilyE, e] <;> exact ⟨_, rfl, hw, rfl⟩
  · right
    refine ⟨?_, hn⟩
    simp only [List.mem_cons, List.not_mem_nil, or_false, not_or] at hn
    simp [decodeFamilyE, hn]

theorem decodeFamilyF_cases (w : Word) (h : fieldOp w = 0xF#4) :
    (∃ i, decodeFamilyF w = .instr i ∧ encode i = w ∧ i.wellFormed = true) ∨
    (decodeFamilyF w = .unmatched w ∧
      fieldNN w ∉ [0x07#8, 0x0A#8, 0x15#8, 0x18#8, 0x1E#8, 0x29#8, 0x33#8, 0x55#8, 0x65#8]) := by
  have hw := formatFXNN_fields w
  rw [h] at hw
  by_cases hn : fieldNN w ∈ [0x07#8, 0x0A#8, 0x15#8, 0x18#8, 0x1E#8, 0x29#8, 0x33#8, 0x55#8, 0x65#8]
  · simp only [List.mem_cons, List.not_mem_nil, or_false] at hn
    left
    rcases hn with e | e | e | e | e | e | e | e | e <;> rw [e] at hw <;> simp only [decodeFamilyF, e] <;>
      exact ⟨_, rfl, hw, rfl⟩
  · right
    refine ⟨?_, hn⟩
    simp only [List.mem_cons, List.not_mem_nil, or_false, not_or] at hn
    simp [decodeFamilyF, hn]

/-- Which function of the decoder answers for a word, by its family nibble. -/
theorem decode_by_family (w : Word) :
    decode w =
      match (fieldOp w).toNat with
      | 0x0 => decodeFamily0 w
      | 0x1 => .instr (.jp (fieldNNN w))
      | 0x2 => .instr (.call (fieldNNN w))
      | 0x3 => .instr (.seImm (fieldX w) (fieldNN w))
      | 0x4 => .instr (.sneImm (fieldX w) (fieldNN w))
      | 0x5 => .instr (.seReg (fieldX w) (fieldY w))
      | 0x6 => .instr (.ldImm (fieldX w) (fieldNN w))
      | 0x7 => .instr (.addImm (fieldX w) (fieldNN w))
      | 0x8 => decodeFamily8 w
      | 0x9 => .instr (.sneReg (fieldX w) (fieldY w))
      | 0xA => .instr (.ldI (fieldNNN w))
      | 0xB => .instr (.jpV0 (fieldNNN w))
      | 0xC => .instr (.rnd (fieldX w) (fieldNN w))
      | 0xD => .instr (.drw (fieldX w) (fieldY w) (fieldN w))
      | 0xE => decodeFamilyE w
      | _ => decodeFamilyF w := by
  unfold decode
  generalize hop : fieldOp w = op
  have hcases : ∀ o : Nib, o ∈ (List.range 16).map (BitVec.ofNat 4) := by decide
  have hm := hcases op
  simp only [List.range, List.range.loop, List.map_cons, List.map_nil, List.mem_cons, List.not_mem_nil, or_false] at hm
  rcases hm with h | h | h | h | h | h | h | h | h | h | h | h | h | h | h | h <;> subst h <;> rfl

end Sys2Proof
end

