-- ==== Sys2Proof/Laws/State.lean ====
section
/-! SUPPORT. Every field after every update of a state, and every reading that an update leaves alone: one lemma each, so that no
later proof unfolds a record update. -/

namespace Sys2Proof.Machine

variable (s : State)

@[simp] theorem State.setV_v (x : Reg) (b : Byte) : (s.setV x b).v = s.v.set x.toNat b x.isLt := rfl
@[simp] theorem State.setV_i (x : Reg) (b : Byte) : (s.setV x b).i = s.i := rfl
@[simp] theorem State.setV_pc (x : Reg) (b : Byte) : (s.setV x b).pc = s.pc := rfl
@[simp] theorem State.setV_stack (x : Reg) (b : Byte) : (s.setV x b).stack = s.stack := rfl
@[simp] theorem State.setV_dt (x : Reg) (b : Byte) : (s.setV x b).dt = s.dt := rfl
@[simp] theorem State.setV_st (x : Reg) (b : Byte) : (s.setV x b).st = s.st := rfl
@[simp] theorem State.setV_mem (x : Reg) (b : Byte) : (s.setV x b).mem = s.mem := rfl
@[simp] theorem State.setV_fb (x : Reg) (b : Byte) : (s.setV x b).fb = s.fb := rfl
@[simp] theorem State.setV_keys (x : Reg) (b : Byte) : (s.setV x b).keys = s.keys := rfl
@[simp] theorem State.setV_waitArmed (x : Reg) (b : Byte) : (s.setV x b).waitArmed = s.waitArmed := rfl
@[simp] theorem State.setV_waitedKey (x : Reg) (b : Byte) : (s.setV x b).waitedKey = s.waitedKey := rfl
@[simp] theorem State.setV_run (x : Reg) (b : Byte) : (s.setV x b).run = s.run := rfl
@[simp] theorem State.setV_diagOut (x : Reg) (b : Byte) : (s.setV x b).diagOut = s.diagOut := rfl
@[simp] theorem State.setV_refused (x : Reg) (b : Byte) : (s.setV x b).refused = s.refused := rfl
@[simp] theorem State.setV_cfg (x : Reg) (b : Byte) : (s.setV x b).cfg = s.cfg := rfl
@[simp] theorem State.setV_draws (x : Reg) (b : Byte) : (s.setV x b).draws = s.draws := rfl
@[simp] theorem State.setV_stepped (x : Reg) (b : Byte) : (s.setV x b).stepped = s.stepped := rfl
@[simp] theorem State.setV_getKey (x : Reg) (b : Byte) (l : Key) : (s.setV x b).getKey l = s.getKey l := rfl
@[simp] theorem State.setV_readByte (x : Reg) (b : Byte) (c : Nat) : (s.setV x b).readByte c = s.readByte c := rfl
@[simp] theorem State.setV_sp (x : Reg) (b : Byte) : (s.setV x b).sp = s.sp := rfl
@[simp] theorem State.setV_fpc (x : Reg) (b : Byte) : (s.setV x b).fpc = s.fpc := rfl

@[simp] theorem State.setI_v (w : Word) : (s.setI w).v = s.v := rfl
@[simp] theorem State.setI_i (w : Word) : (s.setI w).i = w := rfl
@[simp] theorem State.setI_pc (w : Word) : (s.setI w).pc = s.pc := rfl
@[simp] theorem State.setI_stack (w : Word) : (s.setI w).stack = s.stack := rfl
@[simp] theorem State.setI_dt (w : Word) : (s.setI w).dt = s.dt := rfl
@[simp] theorem State.setI_st (w : Word) : (s.setI w).st = s.st := rfl
@[simp] theorem State.setI_mem (w : Word) : (s.setI w).mem = s.mem := rfl
@[simp] theorem State.setI_fb (w : Word) : (s.setI w).fb = s.fb := rfl
@[simp] theorem State.setI_keys (w : Word) : (s.setI w).keys = s.keys := rfl
@[simp] theorem State.setI_waitArmed (w : Word) : (s.setI w).waitArmed = s.waitArmed := rfl
@[simp] theorem State.setI_waitedKey (w : Word) : (s.setI w).waitedKey = s.waitedKey := rfl
@[simp] theorem State.setI_run (w : Word) : (s.setI w).run = s.run := rfl
@[simp] theorem State.setI_diagOut (w : Word) : (s.setI w).diagOut = s.diagOut := rfl
@[simp] theorem State.setI_refused (w : Word) : (s.setI w).refused = s.refused := rfl
@[simp] theorem State.setI_cfg (w : Word) : (s.setI w).cfg = s.cfg := rfl
@[simp] theorem State.setI_draws (w : Word) : (s.setI w).draws = s.draws := rfl
@[simp] theorem State.setI_stepped (w : Word) : (s.setI w).stepped = s.stepped := rfl
@[simp] theorem State.setI_getV (w : Word) (y : Reg) : (s.setI w).getV y = s.getV y := rfl
@[simp] theorem State.setI_getKey (w : Word) (l : Key) : (s.setI w).getKey l = s.getKey l := rfl
@[simp] theorem State.setI_readByte (w : Word) (c : Nat) : (s.setI w).readByte c = s.readByte c := rfl
@[simp] theorem State.setI_sp (w : Word) : (s.setI w).sp = s.sp := rfl
@[simp] theorem State.setI_fpc (w : Word) : (s.setI w).fpc = s.fpc := rfl

@[simp] theorem State.jumpTo_v (w : Word) : (s.jumpTo w).v = s.v := rfl
@[simp] theorem State.jumpTo_i (w : Word) : (s.jumpTo w).i = s.i := rfl
@[simp] theorem State.jumpTo_pc (w : Word) : (s.jumpTo w).pc = w := rfl
@[simp] theorem State.jumpTo_stack (w : Word) : (s.jumpTo w).stack = s.stack := rfl
@[simp] theorem State.jumpTo_dt (w : Word) : (s.jumpTo w).dt = s.dt := rfl
@[simp] theorem State.jumpTo_st (w : Word) : (s.jumpTo w).st = s.st := rfl
@[simp] theorem State.jumpTo_mem (w : Word) : (s.jumpTo w).mem = s.mem := rfl
@[simp] theorem State.jumpTo_fb (w : Word) : (s.jumpTo w).fb = s.fb := rfl
@[simp] theorem State.jumpTo_keys (w : Word) : (s.jumpTo w).keys = s.keys := rfl
@[simp] theorem State.jumpTo_waitArmed (w : Word) : (s.jumpTo w).waitArmed = s.waitArmed := rfl
@[simp] theorem State.jumpTo_waitedKey (w : Word) : (s.jumpTo w).waitedKey = s.waitedKey := rfl
@[simp] theorem State.jumpTo_run (w : Word) : (s.jumpTo w).run = s.run := rfl
@[simp] theorem State.jumpTo_diagOut (w : Word) : (s.jumpTo w).diagOut = s.diagOut := rfl
@[simp] theorem State.jumpTo_refused (w : Word) : (s.jumpTo w).refused = s.refused := rfl
@[simp] theorem State.jumpTo_cfg (w : Word) : (s.jumpTo w).cfg = s.cfg := rfl
@[simp] theorem State.jumpTo_draws (w : Word) : (s.jumpTo w).draws = s.draws := rfl
@[simp] theorem State.jumpTo_stepped (w : Word) : (s.jumpTo w).stepped = s.stepped := rfl
@[simp] theorem State.jumpTo_getV (w : Word) (y : Reg) : (s.jumpTo w).getV y = s.getV y := rfl
@[simp] theorem State.jumpTo_getKey (w : Word) (l : Key) : (s.jumpTo w).getKey l = s.getKey l := rfl
@[simp] theorem State.jumpTo_readByte (w : Word) (c : Nat) : (s.jumpTo w).readByte c = s.readByte c := rfl
@[simp] theorem State.jumpTo_sp (w : Word) : (s.jumpTo w).sp = s.sp := rfl

@[simp] theorem State.raiseAt_v (a : Word) (f : Fatal) : (s.raiseAt a f).v = s.v := rfl
@[simp] theorem State.raiseAt_i (a : Word) (f : Fatal) : (s.raiseAt a f).i = s.i := rfl
@[simp] theorem State.raiseAt_pc (a : Word) (f : Fatal) : (s.raiseAt a f).pc = a := rfl
@[simp] theorem State.raiseAt_stack (a : Word) (f : Fatal) : (s.raiseAt a f).stack = s.stack := rfl
@[simp] theorem State.raiseAt_dt (a : Word) (f : Fatal) : (s.raiseAt a f).dt = s.dt := rfl
@[simp] theorem State.raiseAt_st (a : Word) (f : Fatal) : (s.raiseAt a f).st = s.st := rfl
@[simp] theorem State.raiseAt_mem (a : Word) (f : Fatal) : (s.raiseAt a f).mem = s.mem := rfl
@[simp] theorem State.raiseAt_fb (a : Word) (f : Fatal) : (s.raiseAt a f).fb = s.fb := rfl
@[simp] theorem State.raiseAt_keys (a : Word) (f : Fatal) : (s.raiseAt a f).keys = s.keys := rfl
@[simp] theorem State.raiseAt_waitArmed (a : Word) (f : Fatal) : (s.raiseAt a f).waitArmed = s.waitArmed := rfl
@[simp] theorem State.raiseAt_waitedKey (a : Word) (f : Fatal) : (s.raiseAt a f).waitedKey = s.waitedKey := rfl
@[simp] theorem State.raiseAt_run (a : Word) (f : Fatal) : (s.raiseAt a f).run = .faulted f a := rfl
@[simp] theorem State.raiseAt_diagOut (a : Word) (f : Fatal) : (s.raiseAt a f).diagOut = s.diagOut := rfl
@[simp] theorem State.raiseAt_refused (a : Word) (f : Fatal) : (s.raiseAt a f).refused = s.refused := rfl
@[simp] theorem State.raiseAt_cfg (a : Word) (f : Fatal) : (s.raiseAt a f).cfg = s.cfg := rfl
@[simp] theorem State.raiseAt_draws (a : Word) (f : Fatal) : (s.raiseAt a f).draws = s.draws := rfl
@[simp] theorem State.raiseAt_stepped (a : Word) (f : Fatal) : (s.raiseAt a f).stepped = s.stepped := rfl
@[simp] theorem State.raiseAt_getV (a : Word) (f : Fatal) (y : Reg) : (s.raiseAt a f).getV y = s.getV y := rfl
@[simp] theorem State.raiseAt_getKey (a : Word) (f : Fatal) (l : Key) : (s.raiseAt a f).getKey l = s.getKey l := rfl
@[simp] theorem State.raiseAt_readByte (a : Word) (f : Fatal) (c : Nat) : (s.raiseAt a f).readByte c = s.readByte c := rfl
@[simp] theorem State.raiseAt_sp (a : Word) (f : Fatal) : (s.raiseAt a f).sp = s.sp := rfl

@[simp] theorem State.diag_v (w : Word) : (s.diag w).v = s.v := rfl
@[simp] theorem State.diag_i (w : Word) : (s.diag w).i = s.i := rfl
@[simp] theorem State.diag_pc (w : Word) : (s.diag w).pc = s.pc := rfl
@[simp] theorem State.diag_stack (w : Word) : (s.diag w).stack = s.stack := rfl
@[simp] theorem State.diag_dt (w : Word) : (s.diag w).dt = s.dt := rfl
@[simp] theorem State.diag_st (w : Word) : (s.diag w).st = s.st := rfl
@[simp] theorem State.diag_mem (w : Word) : (s.diag w).mem = s.mem := rfl
@[simp] theorem State.diag_fb (w : Word) : (s.diag w).fb = s.fb := rfl
@[simp] theorem State.diag_keys (w : Word) : (s.diag w).keys = s.keys := rfl
@[simp] theorem State.diag_waitArmed (w : Word) : (s.diag w).waitArmed = s.waitArmed := rfl
@[simp] theorem State.diag_waitedKey (w : Word) : (s.diag w).waitedKey = s.waitedKey := rfl
@[simp] theorem State.diag_run (w : Word) : (s.diag w).run = s.run := rfl
@[simp] theorem State.diag_diagOut (w : Word) : (s.diag w).diagOut = s.diagOut ++ [⟨w, s.fpc⟩] := rfl
@[simp] theorem State.diag_refused (w : Word) : (s.diag w).refused = s.refused := rfl
@[simp] theorem State.diag_cfg (w : Word) : (s.diag w).cfg = s.cfg := rfl
@[simp] theorem State.diag_draws (w : Word) : (s.diag w).draws = s.draws := rfl
@[simp] theorem State.diag_stepped (w : Word) : (s.diag w).stepped = s.stepped := rfl
@[simp] theorem State.diag_getV (w : Word) (y : Reg) : (s.diag w).getV y = s.getV y := rfl
@[simp] theorem State.diag_getKey (w : Word) (l : Key) : (s.diag w).getKey l = s.getKey l := rfl
@[simp] theorem State.diag_readByte (w : Word) (c : Nat) : (s.diag w).readByte c = s.readByte c := rfl
@[simp] theorem State.diag_sp (w : Word) : (s.diag w).sp = s.sp := rfl
@[simp] theorem State.diag_fpc (w : Word) : (s.diag w).fpc = s.fpc := rfl

@[simp] theorem State.refuse_v (w : Word) : (s.refuse w).v = s.v := rfl
@[simp] theorem State.refuse_i (w : Word) : (s.refuse w).i = s.i := rfl
@[simp] theorem State.refuse_pc (w : Word) : (s.refuse w).pc = s.fpc := rfl
@[simp] theorem State.refuse_stack (w : Word) : (s.refuse w).stack = s.stack := rfl
@[simp] theorem State.refuse_dt (w : Word) : (s.refuse w).dt = s.dt := rfl
@[simp] theorem State.refuse_st (w : Word) : (s.refuse w).st = s.st := rfl
@[simp] theorem State.refuse_mem (w : Word) : (s.refuse w).mem = s.mem := rfl
@[simp] theorem State.refuse_fb (w : Word) : (s.refuse w).fb = s.fb := rfl
@[simp] theorem State.refuse_keys (w : Word) : (s.refuse w).keys = s.keys := rfl
@[simp] theorem State.refuse_waitArmed (w : Word) : (s.refuse w).waitArmed = s.waitArmed := rfl
@[simp] theorem State.refuse_waitedKey (w : Word) : (s.refuse w).waitedKey = s.waitedKey := rfl
@[simp] theorem State.refuse_run (w : Word) : (s.refuse w).run = s.run := rfl
@[simp] theorem State.refuse_diagOut (w : Word) : (s.refuse w).diagOut = s.diagOut := rfl
@[simp] theorem State.refuse_refused (w : Word) : (s.refuse w).refused = some ⟨w, s.fpc⟩ := rfl
@[simp] theorem State.refuse_cfg (w : Word) : (s.refuse w).cfg = s.cfg := rfl
@[simp] theorem State.refuse_draws (w : Word) : (s.refuse w).draws = s.draws := rfl
@[simp] theorem State.refuse_stepped (w : Word) : (s.refuse w).stepped = s.stepped := rfl
@[simp] theorem State.refuse_getV (w : Word) (y : Reg) : (s.refuse w).getV y = s.getV y := rfl
@[simp] theorem State.refuse_getKey (w : Word) (l : Key) : (s.refuse w).getKey l = s.getKey l := rfl
@[simp] theorem State.refuse_readByte (w : Word) (c : Nat) : (s.refuse w).readByte c = s.readByte c := rfl
@[simp] theorem State.refuse_sp (w : Word) : (s.refuse w).sp = s.sp := rfl

@[simp] theorem State.writeByte_v (a : Nat) (b : Byte) : (s.writeByte a b).v = s.v := rfl
@[simp] theorem State.writeByte_i (a : Nat) (b : Byte) : (s.writeByte a b).i = s.i := rfl
@[simp] theorem State.writeByte_pc (a : Nat) (b : Byte) : (s.writeByte a b).pc = s.pc := rfl
@[simp] theorem State.writeByte_stack (a : Nat) (b : Byte) : (s.writeByte a b).stack = s.stack := rfl
@[simp] theorem State.writeByte_dt (a : Nat) (b : Byte) : (s.writeByte a b).dt = s.dt := rfl
@[simp] theorem State.writeByte_st (a : Nat) (b : Byte) : (s.writeByte a b).st = s.st := rfl
@[simp] theorem State.writeByte_mem (a : Nat) (b : Byte) : (s.writeByte a b).mem = cellWrite (resetByte s.cfg) s.mem a b := rfl
@[simp] theorem State.writeByte_fb (a : Nat) (b : Byte) : (s.writeByte a b).fb = s.fb := rfl
@[simp] theorem State.writeByte_keys (a : Nat) (b : Byte) : (s.writeByte a b).keys = s.keys := rfl
@[simp] theorem State.writeByte_waitArmed (a : Nat) (b : Byte) : (s.writeByte a b).waitArmed = s.waitArmed := rfl
@[simp] theorem State.writeByte_waitedKey (a : Nat) (b : Byte) : (s.writeByte a b).waitedKey = s.waitedKey := rfl
@[simp] theorem State.writeByte_run (a : Nat) (b : Byte) : (s.writeByte a b).run = s.run := rfl
@[simp] theorem State.writeByte_diagOut (a : Nat) (b : Byte) : (s.writeByte a b).diagOut = s.diagOut := rfl
@[simp] theorem State.writeByte_refused (a : Nat) (b : Byte) : (s.writeByte a b).refused = s.refused := rfl
@[simp] theorem State.writeByte_cfg (a : Nat) (b : Byte) : (s.writeByte a b).cfg = s.cfg := rfl
@[simp] theorem State.writeByte_draws (a : Nat) (b : Byte) : (s.writeByte a b).draws = s.draws := rfl
@[simp] theorem State.writeByte_stepped (a : Nat) (b : Byte) : (s.writeByte a b).stepped = s.stepped := rfl
@[simp] theorem State.writeByte_getV (a : Nat) (b : Byte) (y : Reg) : (s.writeByte a b).getV y = s.getV y := rfl
@[simp] theorem State.writeByte_getKey (a : Nat) (b : Byte) (l : Key) : (s.writeByte a b).getKey l = s.getKey l := rfl
@[simp] theorem State.writeByte_sp (a : Nat) (b : Byte) : (s.writeByte a b).sp = s.sp := rfl
@[simp] theorem State.writeByte_fpc (a : Nat) (b : Byte) : (s.writeByte a b).fpc = s.fpc := rfl

@[simp] theorem State.setKey_v (k : Key) (b : Bool) : (s.setKey k b).v = s.v := rfl
@[simp] theorem State.setKey_i (k : Key) (b : Bool) : (s.setKey k b).i = s.i := rfl
@[simp] theorem State.setKey_pc (k : Key) (b : Bool) : (s.setKey k b).pc = s.pc := rfl
@[simp] theorem State.setKey_stack (k : Key) (b : Bool) : (s.setKey k b).stack = s.stack := rfl
@[simp] theorem State.setKey_dt (k : Key) (b : Bool) : (s.setKey k b).dt = s.dt := rfl
@[simp] theorem State.setKey_st (k : Key) (b : Bool) : (s.setKey k b).st = s.st := rfl
@[simp] theorem State.setKey_mem (k : Key) (b : Bool) : (s.setKey k b).mem = s.mem := rfl
@[simp] theorem State.setKey_fb (k : Key) (b : Bool) : (s.setKey k b).fb = s.fb := rfl
@[simp] theorem State.setKey_keys (k : Key) (b : Bool) : (s.setKey k b).keys = s.keys.set k.toNat b k.isLt := rfl
@[simp] theorem State.setKey_waitArmed (k : Key) (b : Bool) : (s.setKey k b).waitArmed = s.waitArmed := rfl
@[simp] theorem State.setKey_waitedKey (k : Key) (b : Bool) : (s.setKey k b).waitedKey = s.waitedKey := rfl
@[simp] theorem State.setKey_run (k : Key) (b : Bool) : (s.setKey k b).run = s.run := rfl
@[simp] theorem State.setKey_diagOut (k : Key) (b : Bool) : (s.setKey k b).diagOut = s.diagOut := rfl
@[simp] theorem State.setKey_refused (k : Key) (b : Bool) : (s.setKey k b).refused = s.refused := rfl
@[simp] theorem State.setKey_cfg (k : Key) (b : Bool) : (s.setKey k b).cfg = s.cfg := rfl
@[simp] theorem State.setKey_draws (k : Key) (b : Bool) : (s.setKey k b).draws = s.draws := rfl
@[simp] theorem State.setKey_stepped (k : Key) (b : Bool) : (s.setKey k b).stepped = s.stepped := rfl
@[simp] theorem State.setKey_getV (k : Key) (b : Bool) (y : Reg) : (s.setKey k b).getV y = s.getV y := rfl
@[simp] theorem State.setKey_readByte (k : Key) (b : Bool) (c : Nat) : (s.setKey k b).readByte c = s.readByte c := rfl
@[simp] theorem State.setKey_sp (k : Key) (b : Bool) : (s.setKey k b).sp = s.sp := rfl
@[simp] theorem State.setKey_fpc (k : Key) (b : Bool) : (s.setKey k b).fpc = s.fpc := rfl

@[simp] theorem armWait_v : (armWait s).v = s.v := rfl
@[simp] theorem armWait_i : (armWait s).i = s.i := rfl
@[simp] theorem armWait_pc : (armWait s).pc = s.pc := rfl
@[simp] theorem armWait_stack : (armWait s).stack = s.stack := rfl
@[simp] theorem armWait_dt : (armWait s).dt = s.dt := rfl
@[simp] theorem armWait_st : (armWait s).st = s.st := rfl
@[simp] theorem armWait_mem : (armWait s).mem = s.mem := rfl
@[simp] theorem armWait_fb : (armWait s).fb = s.fb := rfl
@[simp] theorem armWait_keys : (armWait s).keys = s.keys := rfl
@[simp] theorem armWait_waitArmed : (armWait s).waitArmed = true := rfl
@[simp] theorem armWait_waitedKey : (armWait s).waitedKey = s.waitedKey := rfl
@[simp] theorem armWait_run : (armWait s).run = s.run := rfl
@[simp] theorem armWait_diagOut : (armWait s).diagOut = s.diagOut := rfl
@[simp] theorem armWait_refused : (armWait s).refused = s.refused := rfl
@[simp] theorem armWait_cfg : (armWait s).cfg = s.cfg := rfl
@[simp] theorem armWait_draws : (armWait s).draws = s.draws := rfl
@[simp] theorem armWait_stepped : (armWait s).stepped = s.stepped := rfl
@[simp] theorem armWait_getV (y : Reg) : (armWait s).getV y = s.getV y := rfl
@[simp] theorem armWait_getKey (l : Key) : (armWait s).getKey l = s.getKey l := rfl
@[simp] theorem armWait_readByte (c : Nat) : (armWait s).readByte c = s.readByte c := rfl
@[simp] theorem armWait_sp : (armWait s).sp = s.sp := rfl
@[simp] theorem armWait_fpc : (armWait s).fpc = s.fpc := rfl

@[simp] theorem State.markStepped_v : (s.markStepped).v = s.v := rfl
@[simp] theorem State.markStepped_i : (s.markStepped).i = s.i := rfl
@[simp] theorem State.markStepped_pc : (s.markStepped).pc = s.pc := rfl
@[simp] theorem State.markStepped_stack : (s.markStepped).stack = s.stack := rfl
@[simp] theorem State.markStepped_dt : (s.markStepped).dt = s.dt := rfl
@[simp] theorem State.markStepped_st : (s.markStepped).st = s.st := rfl
@[simp] theorem State.markStepped_mem : (s.markStepped).mem = s.mem := rfl
@[simp] theorem State.markStepped_fb : (s.markStepped).fb = s.fb := rfl
@[simp] theorem State.markStepped_keys : (s.markStepped).keys = s.keys := rfl
@[simp] theorem State.markStepped_waitArmed : (s.markStepped).waitArmed = s.waitArmed := rfl
@[simp] theorem State.markStepped_waitedKey : (s.markStepped).waitedKey = s.waitedKey := rfl
@[simp] theorem State.markStepped_run : (s.markStepped).run = s.run := rfl
@[simp] theorem State.markStepped_diagOut : (s.markStepped).diagOut = s.diagOut := rfl
@[simp] theorem State.markStepped_refused : (s.markStepped).refused = s.refused := rfl
@[simp] theorem State.markStepped_cfg : (s.markStepped).cfg = s.cfg := rfl
@[simp] theorem State.markStepped_draws : (s.markStepped).draws = s.draws := rfl
@[simp] theorem State.markStepped_stepped : (s.markStepped).stepped = true := rfl
@[simp] theorem State.markStepped_getV (y : Reg) : (s.markStepped).getV y = s.getV y := rfl
@[simp] theorem State.markStepped_getKey (l : Key) : (s.markStepped).getKey l = s.getKey l := rfl
@[simp] theorem State.markStepped_readByte (c : Nat) : (s.markStepped).readByte c = s.readByte c := rfl
@[simp] theorem State.markStepped_sp : (s.markStepped).sp = s.sp := rfl
@[simp] theorem State.markStepped_fpc : (s.markStepped).fpc = s.fpc := rfl

@[simp] theorem State.advancePc_v : (s.advancePc).v = s.v := rfl
@[simp] theorem State.advancePc_i : (s.advancePc).i = s.i := rfl
@[simp] theorem State.advancePc_pc : (s.advancePc).pc = s.pc + 2#16 := rfl
@[simp] theorem State.advancePc_stack : (s.advancePc).stack = s.stack := rfl
@[simp] theorem State.advancePc_dt : (s.advancePc).dt = s.dt := rfl
@[simp] theorem State.advancePc_st : (s.advancePc).st = s.st := rfl
@[simp] theorem State.advancePc_mem : (s.advancePc).mem = s.mem := rfl
@[simp] theorem State.advancePc_fb : (s.advancePc).fb = s.fb := rfl
@[simp] theorem State.advancePc_keys : (s.advancePc).keys = s.keys := rfl
@[simp] theorem State.advancePc_waitArmed : (s.advancePc).waitArmed = s.waitArmed := rfl
@[simp] theorem State.advancePc_waitedKey : (s.advancePc).waitedKey = s.waitedKey := rfl
@[simp] theorem State.advancePc_run : (s.advancePc).run = s.run := rfl
@[simp] theorem State.advancePc_diagOut : (s.advancePc).diagOut = s.diagOut := rfl
@[simp] theorem State.advancePc_refused : (s.advancePc).refused = s.refused := rfl
@[simp] theorem State.advancePc_cfg : (s.advancePc).cfg = s.cfg := rfl
@[simp] theorem State.advancePc_draws : (s.advancePc).draws = s.draws := rfl
@[simp] theorem State.advancePc_stepped : (s.advancePc).stepped = s.stepped := rfl
@[simp] theorem State.advancePc_getV (y : Reg) : (s.advancePc).getV y = s.getV y := rfl
@[simp] theorem State.advancePc_getKey (l : Key) : (s.advancePc).getKey l = s.getKey l := rfl
@[simp] theorem State.advancePc_readByte (c : Nat) : (s.advancePc).readByte c = s.readByte c := rfl
@[simp] theorem State.advancePc_sp : (s.advancePc).sp = s.sp := rfl

@[simp] theorem State.raise_eq (f : Fatal) : s.raise f = s.raiseAt s.fpc f := rfl

/-- A body starts with PC past its word, so the fetch address is PC before the step (R91). -/
@[simp] theorem State.entry_fpc : s.entry.fpc = s.pc := by simp [State.entry, State.fpc]

@[simp] theorem State.entry_v : s.entry.v = s.v := rfl
@[simp] theorem State.entry_i : s.entry.i = s.i := rfl
@[simp] theorem State.entry_pc : s.entry.pc = s.pc + 2#16 := rfl
@[simp] theorem State.entry_stack : s.entry.stack = s.stack := rfl
@[simp] theorem State.entry_dt : s.entry.dt = s.dt := rfl
@[simp] theorem State.entry_st : s.entry.st = s.st := rfl
@[simp] theorem State.entry_mem : s.entry.mem = s.mem := rfl
@[simp] theorem State.entry_fb : s.entry.fb = s.fb := rfl
@[simp] theorem State.entry_keys : s.entry.keys = s.keys := rfl
@[simp] theorem State.entry_waitArmed : s.entry.waitArmed = s.waitArmed := rfl
@[simp] theorem State.entry_waitedKey : s.entry.waitedKey = s.waitedKey := rfl
@[simp] theorem State.entry_run : s.entry.run = s.run := rfl
@[simp] theorem State.entry_diagOut : s.entry.diagOut = s.diagOut := rfl
@[simp] theorem State.entry_refused : s.entry.refused = s.refused := rfl
@[simp] theorem State.entry_cfg : s.entry.cfg = s.cfg := rfl
@[simp] theorem State.entry_draws : s.entry.draws = s.draws := rfl
@[simp] theorem State.entry_stepped : s.entry.stepped = true := rfl
@[simp] theorem State.entry_getV (y : Reg) : s.entry.getV y = s.getV y := rfl
@[simp] theorem State.entry_getKey (l : Key) : s.entry.getKey l = s.getKey l := rfl
@[simp] theorem State.entry_readByte (c : Nat) : s.entry.readByte c = s.readByte c := rfl
@[simp] theorem State.entry_sp : s.entry.sp = s.sp := rfl

end Sys2Proof.Machine
end

