-- ==== Sys2Proof/Laws/Memory.lean ====
section
/-! SUPPORT. Laws of memory: a read after a write, and the canonical form, which every memory operation keeps. -/

namespace Sys2Proof.Machine

variable {d : Nat → Byte}

theorem cellRead_of_not_mem {m : List Host.Cell} {a : Nat} (h : ∀ c ∈ m, c.1 ≠ a) : cellRead d m a = d a := by
  induction m with
  | nil => rfl
  | cons c m ih =>
    have hc : c.1 ≠ a := h c List.mem_cons_self
    simp only [cellRead, if_neg hc]
    exact ih fun k hk => h k (List.mem_cons_of_mem _ hk)

theorem cellRead_erase_same (m : List Host.Cell) (a : Nat) : cellRead d (cellErase m a) a = d a :=
  cellRead_of_not_mem fun c hc => by simpa [cellErase] using (List.mem_filter.mp hc).2

theorem cellRead_erase_other (m : List Host.Cell) {a e : Nat} (h : e ≠ a) :
    cellRead d (cellErase m a) e = cellRead d m e := by
  induction m with
  | nil => rfl
  | cons c m ih =>
    by_cases hc : c.1 = a
    · have : cellErase (c :: m) a = cellErase m a := by simp [cellErase, hc]
      rw [this, ih, cellRead, if_neg (by omega)]
    · have : cellErase (c :: m) a = c :: cellErase m a := by simp [cellErase, hc]
      rw [this, cellRead, cellRead, ih]

theorem cellRead_insert_same (c : Host.Cell) {m : List Host.Cell} (h : ∀ k ∈ m, k.1 ≠ c.1) :
    cellRead d (cellInsert c m) c.1 = c.2 := by
  induction m with
  | nil => simp [cellInsert, cellRead]
  | cons k m ih =>
    simp only [cellInsert]
    split
    · simp [cellRead]
    · rw [cellRead, if_neg (h k List.mem_cons_self)]
      exact ih fun k' hk' => h k' (List.mem_cons_of_mem _ hk')

theorem cellRead_insert_other (c : Host.Cell) (m : List Host.Cell) {e : Nat} (h : e ≠ c.1) :
    cellRead d (cellInsert c m) e = cellRead d m e := by
  induction m with
  | nil => simp [cellInsert, cellRead, h.symm]
  | cons k m ih =>
    simp only [cellInsert]
    split
    · rw [cellRead, if_neg h.symm]
    · simp only [cellRead, ih]

/-- The byte written is the byte read, whatever the list of cells. -/
@[simp] theorem cellRead_write_same (m : List Host.Cell) (a : Nat) (b : Byte) : cellRead d (cellWrite d m a b) a = b := by
  unfold cellWrite
  split
  · next h => rw [cellRead_erase_same, h]
  · exact cellRead_insert_same (a, b) fun k hk => by simpa [cellErase] using (List.mem_filter.mp hk).2

/-- A write leaves every other address alone. -/
theorem cellRead_write_other (m : List Host.Cell) {a e : Nat} (b : Byte) (h : e ≠ a) :
    cellRead d (cellWrite d m a b) e = cellRead d m e := by
  unfold cellWrite
  split
  · exact cellRead_erase_other m h
  · rw [cellRead_insert_other _ _ h, cellRead_erase_other m h]

theorem mem_cellInsert {c k : Host.Cell} {m : List Host.Cell} : k ∈ cellInsert c m ↔ k = c ∨ k ∈ m := by
  induction m with
  | nil => simp [cellInsert]
  | cons h t ih =>
    simp only [cellInsert]
    split
    · simp
    · simp only [List.mem_cons, ih]
      tauto

theorem wf_erase {m : List Host.Cell} (h : Memory.wf d m) (a : Nat) : Memory.wf d (cellErase m a) :=
  ⟨h.1.filter _, fun c hc => h.2 c (List.mem_filter.mp hc).1⟩

theorem sorted_insert {c : Host.Cell} {m : List Host.Cell} (h : m.Pairwise fun a b => a.1 < b.1)
    (hne : ∀ k ∈ m, k.1 ≠ c.1) : (cellInsert c m).Pairwise fun a b => a.1 < b.1 := by
  induction m with
  | nil => simp [cellInsert]
  | cons k t ih =>
    simp only [cellInsert]
    obtain ⟨hk, ht⟩ := List.pairwise_cons.mp h
    split
    · next hlt =>
      refine List.pairwise_cons.mpr ⟨fun e he => ?_, h⟩
      rcases List.mem_cons.mp he with rfl | he
      · exact hlt
      · exact lt_trans hlt (hk e he)
    · next hge =>
      have hkc : k.1 < c.1 := by
        have := hne k List.mem_cons_self
        omega
      refine List.pairwise_cons.mpr ⟨fun e he => ?_, ih ht fun e he => hne e (List.mem_cons_of_mem _ he)⟩
      rcases mem_cellInsert.mp he with rfl | he
      · exact hkc
      · exact hk e he

/-- A write inside memory keeps the canonical form. -/
theorem wf_write {m : List Host.Cell} (h : Memory.wf d m) {a : Nat} (ha : a < memSize) (b : Byte) :
    Memory.wf d (cellWrite d m a b) := by
  unfold cellWrite
  split
  · exact wf_erase h a
  · next hb =>
    have he := wf_erase h a
    refine ⟨sorted_insert he.1 fun k hk => by simpa [cellErase] using (List.mem_filter.mp hk).2, fun c hc => ?_⟩
    rcases mem_cellInsert.mp hc with rfl | hc
    · exact ⟨ha, hb⟩
    · exact he.2 c hc

/-- Memory with nothing listed, as after reset, has the canonical form. -/
theorem wf_nil : Memory.wf d [] := ⟨List.Pairwise.nil, by simp⟩

/-! ### Bytes of a state -/

@[simp] theorem State.readByte_writeByte_same (s : State) (a : Nat) (b : Byte) : (s.writeByte a b).readByte a = b :=
  cellRead_write_same _ _ _

theorem State.readByte_writeByte_other (s : State) {a e : Nat} (b : Byte) (h : e ≠ a) :
    (s.writeByte a b).readByte e = s.readByte e := cellRead_write_other _ _ h

/-- Storing bytes changes no field but memory. -/
theorem State.writeBytes_eq (s : State) (a : Nat) (bs : List Byte) :
    s.writeBytes a bs = { s with mem := (s.writeBytes a bs).mem } := by
  induction bs generalizing s a with
  | nil => rfl
  | cons b bs ih =>
    rw [State.writeBytes, ih]
    rfl

theorem State.readByte_writeBytes_outside (s : State) (a : Nat) (bs : List Byte) {e : Nat}
    (h : e < a ∨ a + bs.length ≤ e) : (s.writeBytes a bs).readByte e = s.readByte e := by
  induction bs generalizing s a with
  | nil => rfl
  | cons b bs ih =>
    simp only [List.length_cons] at h
    rw [State.writeBytes, ih _ _ (by omega), State.readByte_writeByte_other _ _ (by omega)]

theorem State.readByte_writeBytes_inside (s : State) (a : Nat) (bs : List Byte) {j : Nat} (h : j < bs.length) :
    (s.writeBytes a bs).readByte (a + j) = bs[j] := by
  induction bs generalizing s a j with
  | nil => simp at h
  | cons b bs ih =>
    rw [State.writeBytes]
    cases j with
    | zero => rw [State.readByte_writeBytes_outside _ _ _ (by omega)]; simp
    | succ j =>
      have := ih (s.writeByte a b) (a + 1) (j := j) (by simpa using h)
      simpa [Nat.add_assoc, Nat.add_comm 1 j] using this

/-- Storing bytes inside memory keeps the canonical form. -/
theorem State.writeBytes_wf (s : State) (a : Nat) (bs : List Byte) (h : Memory.wf (resetByte s.cfg) s.mem)
    (ha : a + bs.length ≤ memSize) : Memory.wf (resetByte s.cfg) (s.writeBytes a bs).mem := by
  induction bs generalizing s a with
  | nil => exact h
  | cons b bs ih =>
    simp only [List.length_cons] at ha
    exact ih (s.writeByte a b) (a + 1) (wf_write h (by omega) b) (by omega)

end Sys2Proof.Machine
end

