-- ==== Sys2Proof/Laws/Frame.lean ====
section
/-! SUPPORT. Frames: how they compose, and the frame of every primitive update. -/

namespace Sys2Proof.Machine

variable {s t u : State} {P Q : Part → Prop}

theorem Part.same_refl (p : Part) : p.same s s := by cases p <;> rfl

theorem Part.same_trans {p : Part} (h : p.same s t) (k : p.same t u) : p.same s u := by
  cases p <;> exact Eq.trans k h

theorem UnchangedBut.refl : UnchangedBut P s s := fun p _ => Part.same_refl p

theorem UnchangedBut.mono (h : UnchangedBut P s t) (hPQ : ∀ p, P p → Q p) : UnchangedBut Q s t :=
  fun p hp => h p fun k => hp (hPQ p k)

theorem UnchangedBut.trans (h : UnchangedBut P s t) (k : UnchangedBut P t u) : UnchangedBut P s u :=
  fun p hp => Part.same_trans (h p hp) (k p hp)

/-! ### Registers, keys and pixels -/

theorem State.getV_setV (s : State) (x y : Reg) (b : Byte) : (s.setV x b).getV y = if x = y then b else s.getV y := by
  have hx : x.toNat = y.toNat ↔ x = y := by rw [← BitVec.toNat_inj]
  simp only [State.getV, State.setV, Vector.get_eq_getElem, BitVec.val_toFin, Vector.getElem_set, hx]

@[simp] theorem State.getV_setV_same (s : State) (x : Reg) (b : Byte) : (s.setV x b).getV x = b := by
  rw [State.getV_setV, if_pos rfl]

theorem State.getV_setV_other (s : State) {x y : Reg} (b : Byte) (h : x ≠ y) : (s.setV x b).getV y = s.getV y := by
  rw [State.getV_setV, if_neg h]

theorem State.getKey_setKey (s : State) (k l : Key) (b : Bool) :
    (s.setKey k b).getKey l = if k = l then b else s.getKey l := by
  have hk : k.toNat = l.toNat ↔ k = l := by rw [← BitVec.toNat_inj]
  simp only [State.getKey, State.setKey, Vector.get_eq_getElem, BitVec.val_toFin, Vector.getElem_set, hk]

theorem getPixel_setPixel (fb : FrameBuffer) (cx ex : Fin 64) (cy ey : Fin 32) (b : Bool) :
    getPixel (setPixel fb cx cy b) ex ey = if cx = ex ∧ cy = ey then b else getPixel fb ex ey := by
  simp only [getPixel, setPixel, Vector.get_eq_getElem, Vector.getElem_set, Fin.ext_iff]
  by_cases hx : cx.val = ex.val
  · simp [hx, Vector.getElem_set]
  · simp [hx]

@[simp] theorem getPixel_clearFb (cx : Fin 64) (cy : Fin 32) : getPixel clearFb cx cy = false := by
  simp [getPixel, clearFb, Vector.get_eq_getElem]

/-! ### The frame of each primitive update -/

theorem setV_frame (s : State) (x : Reg) (b : Byte) : UnchangedBut (fun p => p = .v x) s (s.setV x b) := by
  intro p hp
  cases p with
  | v y => exact State.getV_setV_other _ _ fun h => hp (by rw [h])
  | _ => rfl

theorem setI_frame (s : State) (w : Word) : UnchangedBut (fun p => p = .i) s (s.setI w) := by
  intro p hp
  cases p with
  | i => exact absurd rfl hp
  | _ => rfl

theorem jumpTo_frame (s : State) (w : Word) : UnchangedBut (fun p => p = .pc) s (s.jumpTo w) := by
  intro p hp
  cases p with
  | pc => exact absurd rfl hp
  | _ => rfl

theorem skipIf_frame (s : State) (c : Bool) : UnchangedBut (fun p => p = .pc) s (s.skipIf c) := by
  cases c
  · exact UnchangedBut.refl
  · exact jumpTo_frame _ _

theorem raiseAt_frame (s : State) (a : Word) (f : Fatal) :
    UnchangedBut (fun p => p = .pc ∨ p = .run) s (s.raiseAt a f) := by
  intro p hp
  cases p with
  | pc => exact absurd (.inl rfl) hp
  | run => exact absurd (.inr rfl) hp
  | _ => rfl

theorem diag_frame (s : State) (w : Word) : UnchangedBut (fun p => p = .diagOut) s (s.diag w) := by
  intro p hp
  cases p with
  | diagOut => exact absurd rfl hp
  | _ => rfl

theorem refuse_frame (s : State) (w : Word) : UnchangedBut (fun p => p = .pc ∨ p = .refused) s (s.refuse w) := by
  intro p hp
  cases p with
  | pc => exact absurd (.inl rfl) hp
  | refused => exact absurd (.inr rfl) hp
  | _ => rfl

theorem setKey_frame (s : State) (k : Key) (b : Bool) : UnchangedBut (fun p => p = .key k) s (s.setKey k b) := by
  intro p hp
  cases p with
  | key l =>
    have hkl : k ≠ l := fun h => hp (by rw [h])
    simp only [Part.same, State.getKey_setKey, if_neg hkl]
  | _ => rfl

theorem entry_frame (s : State) : UnchangedBut (fun p => p = .pc ∨ p = .stepped) s s.entry := by
  intro p hp
  cases p with
  | pc => exact absurd (.inl rfl) hp
  | stepped => exact absurd (.inr rfl) hp
  | _ => rfl

theorem writeBytes_frame (s : State) (a : Nat) (bs : List Byte) :
    UnchangedBut (Part.inBlock a bs.length) s (s.writeBytes a bs) := by
  intro p hp
  cases p with
  | mem e =>
    refine State.readByte_writeBytes_outside s a bs ?_
    by_contra h
    exact hp ⟨e - a, by omega, by congr 1; omega⟩
  | _ => rw [State.writeBytes_eq]; rfl

end Sys2Proof.Machine
end

