-- ==== Sys2Proof/Laws/Ops.lean ====
section
/-! SUPPORT. What each shared operation can do, said once: provers cite these instead of unfolding the operation. -/

namespace Sys2Proof.Machine

/-! ### Ending an instruction -/

@[simp] theorem complete_ok (s t : State) : complete s (.ok t) = .next t := rfl

@[simp] theorem complete_error (s : State) (f : Fatal) : complete s (.error f) = .next (s.raiseAt s.fpc f) := rfl

/-- An instruction whose checks may raise ends in its result or in the fatal condition, and always in a next state. -/
theorem complete_cases (s : State) (r : Except Fatal State) :
    (∃ t, r = .ok t ∧ complete s r = .next t) ∨ (∃ f, r = .error f ∧ complete s r = .next (s.raiseAt s.fpc f)) := by
  cases r with
  | ok t => exact .inl ⟨t, rfl, rfl⟩
  | error f => exact .inr ⟨f, rfl, rfl⟩

@[simp] theorem except_map_ok {α β : Type} (g : α → β) (a : α) : Except.map g (Except.ok (ε := Fatal) a) = .ok (g a) := rfl

@[simp] theorem except_map_error {α β : Type} (g : α → β) (f : Fatal) :
    Except.map g (Except.error (α := α) f) = .error f := rfl

theorem admitted_of_true {s : State} (h : s.cfg.admitGkOps = true) (w : Word) (t : State) : admitted s w t = .next t := by
  simp [admitted, h]

theorem admitted_of_false {s : State} (h : s.cfg.admitGkOps = false) (w : Word) (t : State) :
    admitted s w t = .next (s.refuse w) := by
  simp [admitted, h]

/-! ### Memory -/

theorem memRead_ok {s : State} {a n : Nat} (h : a + n ≤ memSize) :
    memRead s a n = .ok ((List.range n).map fun j => s.readByte (a + j)) := by simp [memRead, h]

theorem memRead_error {s : State} {a n : Nat} (h : memSize < a + n) : memRead s a n = .error (.memOutOfRange a n) := by
  simp [memRead, Nat.not_le.mpr h]

/-- A read that succeeds gives the bytes of the block in rising order. -/
theorem memRead_cases {s : State} {a n : Nat} {bs : List Byte} (h : memRead s a n = .ok bs) :
    a + n ≤ memSize ∧ bs.length = n ∧ ∀ j, (hj : j < bs.length) → bs[j] = s.readByte (a + j) := by
  unfold memRead at h
  split at h
  · next hle =>
    cases h
    exact ⟨hle, by simp, by simp⟩
  · cases h

theorem memWrite_ok {s : State} {a : Nat} {bs : List Byte} (h : a + bs.length ≤ memSize) :
    memWrite s a bs = .ok (s.writeBytes a bs) := by simp [memWrite, h]

theorem memWrite_error {s : State} {a : Nat} {bs : List Byte} (h : memSize < a + bs.length) :
    memWrite s a bs = .error (.memOutOfRange a bs.length) := by simp [memWrite, Nat.not_le.mpr h]

@[simp] theorem bcdDigits_length (b : Byte) : (bcdDigits b).length = 3 := rfl

@[simp] theorem dumpBytes_length (s : State) (x : Reg) : (dumpBytes s x).length = x.toNat + 1 := by
  simp [dumpBytes, transferLen]

/-! ### Call stack -/

theorem push_cases {s : State} {a : Word} {r : Except Fatal State} (h : push s a = r) :
    (s.cfg.stackOverflow = .fault ∧ s.sp = stackDepth ∧ r = .error (.stackOverflow s.sp a)) ∨
    (¬(s.cfg.stackOverflow = .fault ∧ s.sp = stackDepth) ∧ r = .ok { s with stack := s.stack ++ [a] }) := by
  unfold push at h
  split at h
  · next hc => exact .inl ⟨hc.1, hc.2, h.symm⟩
  · next hc => exact .inr ⟨hc, h.symm⟩

theorem pop_cases (s : State) :
    (∃ l a, s.stack = l ++ [a] ∧ pop s = .ok (a, { s with stack := l })) ∨
    (s.stack = [] ∧ s.cfg.emptyReturn = .pcZero ∧ pop s = .ok (0x0000#16, s)) ∨
    (s.stack = [] ∧ s.cfg.emptyReturn = .fault ∧ pop s = .error .stackUnderflow) := by
  rcases List.eq_nil_or_concat s.stack with h | ⟨l, a, h⟩
  · right
    cases hc : s.cfg.emptyReturn with
    | pcZero => exact .inl ⟨h, rfl, by simp [pop, h, hc]⟩
    | fault => exact .inr ⟨h, rfl, by simp [pop, h, hc]⟩
  · left
    rw [List.concat_eq_append] at h
    exact ⟨l, a, h, by simp [pop, h]⟩

/-! ### Latch and draws -/

theorem isPressed_ok {s : State} {k : Byte} (h : k.toNat ≤ 0x0F) : isPressed s k = .ok (s.getKey (k.setWidth 4)) := by
  simp [isPressed, h]

theorem isPressed_error {s : State} {k : Byte} (h : 0x0F < k.toNat) : isPressed s k = .error (.invalidKey k) := by
  simp [isPressed, Nat.not_le.mpr h]

theorem releaseKey_cases (k : Key) (s : State) :
    (s.waitArmed = true ∧ s.getKey k = true ∧
      releaseKey k s = { s.setKey k false with waitedKey := some k, waitArmed := false }) ∨
    (¬(s.waitArmed = true ∧ s.getKey k = true) ∧ releaseKey k s = s.setKey k false) := by
  by_cases h : s.waitArmed = true ∧ s.getKey k = true
  · exact .inl ⟨h.1, h.2, by simp [releaseKey, h.1, h.2]⟩
  · exact .inr ⟨h, by unfold releaseKey; exact if_neg h⟩

/-! ### Flags -/

theorem flagByte_toNat (c : Bool) : (flagByte c).toNat = if c = true then 1 else 0 := by cases c <;> rfl

theorem State.getV_setResultFlag_vf (s : State) (x : Reg) (r : Byte) (c : Bool) :
    (s.setResultFlag x r c).getV vf = flagByte c := State.getV_setV_same _ _ _

theorem State.getV_setResultFlag_dest (s : State) {x : Reg} (r : Byte) (c : Bool) (h : x ≠ vf) :
    (s.setResultFlag x r c).getV x = r := by
  unfold State.setResultFlag State.setFlag
  rw [State.getV_setV_other _ _ h.symm, State.getV_setV_same]

theorem setResultFlag_frame (s : State) (x : Reg) (r : Byte) (c : Bool) :
    UnchangedBut (fun p => p = .v x ∨ p = .v vf) s (s.setResultFlag x r c) :=
  ((setV_frame s x r).mono fun _ h => .inl h).trans ((setV_frame _ vf _).mono fun _ h => .inr h)

theorem logicFlag_frame (s : State) : UnchangedBut (fun p => p = .v vf ∨ p = .draws) s s.logicFlag := by
  unfold State.logicFlag
  split
  · exact (setV_frame s vf _).mono fun _ h => .inl h
  · exact UnchangedBut.refl
  · intro p hp
    cases p with
    | v y => exact State.getV_setV_other _ _ fun h => hp (.inl (by rw [h]))
    | draws => exact absurd (.inr rfl) hp
    | _ => rfl

/-! ### Register dump and load -/

theorem dumpBytes_getElem (s : State) (x : Reg) {j : Nat} (h : j < (dumpBytes s x).length) :
    (dumpBytes s x)[j] = s.getV (BitVec.ofNat 4 j) := by simp [dumpBytes]

/-- Loading registers changes no field but V. -/
theorem loadRegs_eq (s : State) (j : Nat) (bs : List Byte) : loadRegs s j bs = { s with v := (loadRegs s j bs).v } := by
  induction bs generalizing s j with
  | nil => rfl
  | cons b bs ih =>
    rw [loadRegs, ih]
    rfl

theorem loadRegs_below (s : State) (j : Nat) (bs : List Byte) (r : Reg) (h : r.toNat < j ∨ j + bs.length ≤ r.toNat)
    (hj : j + bs.length ≤ 16) : (loadRegs s j bs).getV r = s.getV r := by
  induction bs generalizing s j with
  | nil => rfl
  | cons b bs ih =>
    simp only [List.length_cons] at h hj
    rw [loadRegs, ih _ _ (by omega) (by omega), State.getV_setV_other]
    intro he
    have : (BitVec.ofNat 4 j).toNat = r.toNat := by rw [he]
    simp only [BitVec.toNat_ofNat] at this
    omega

theorem loadRegs_at (s : State) (j : Nat) (bs : List Byte) (r : Reg) (k : Nat) (hk : k < bs.length) (hr : r.toNat = j + k)
    (hj : j + bs.length ≤ 16) : (loadRegs s j bs).getV r = bs[k] := by
  induction bs generalizing s j k with
  | nil => simp at hk
  | cons b bs ih =>
    simp only [List.length_cons] at hk hj
    rw [loadRegs]
    cases k with
    | zero =>
      rw [loadRegs_below _ _ _ _ (by omega) (by omega)]
      have hrj : BitVec.ofNat 4 j = r := by
        apply BitVec.eq_of_toNat_eq
        simp only [BitVec.toNat_ofNat]
        omega
      rw [hrj, State.getV_setV_same]
      rfl
    | succ k => simpa using ih (s.setV (BitVec.ofNat 4 j) b) (j + 1) k (by omega) (by omega) (by omega)

theorem advanceI_frame (s : State) (x : Reg) : UnchangedBut (fun p => p = .i) s (advanceI s x) := by
  unfold advanceI
  split
  · exact setI_frame _ _
  · exact UnchangedBut.refl

theorem advanceI_i (s : State) (x : Reg) :
    (advanceI s x).i = if s.cfg.ldstIncI = true then BitVec.ofNat 16 (s.i.toNat + (x.toNat + 1)) else s.i := by
  unfold advanceI transferLen
  split <;> simp_all

/-! ### When a transaction has a move -/

/-- A transaction that moves found a running block with no refusal mark. -/
theorem whenEnabled_next {s t : State} {go : Host.Outcome State Fault Refusal} (h : whenEnabled s go = .next t) :
    s.run = .running ∧ s.refused = none ∧ go = .next t := by
  unfold whenEnabled at h
  split at h
  · cases h
  · cases h
  · next hr hm => exact ⟨hr, hm, h⟩

/-- A running state that holds the mark has no move. -/
theorem whenEnabled_marked {s : State} {d : Diag} (hr : s.run = .running) (hm : s.refused = some d)
    (go : Host.Outcome State Fault Refusal) : whenEnabled s go = .refused (.refusedRun d) := by
  unfold whenEnabled; rw [hr, hm]

theorem whenEnabled_safe {s : State} (h : s.Safe) (go : Host.Outcome State Fault Refusal) : whenEnabled s go = go := by
  simp [whenEnabled, h.1, h.2]

/-- A fetch that succeeds gives the two bytes at PC. -/
theorem fetchBytes_ok {s : State} (h : s.pc.toNat + 2 ≤ memSize) :
    fetchBytes s = .ok [s.readByte s.pc.toNat, s.readByte (s.pc.toNat + 1)] := by
  rw [fetchBytes, memRead_ok h]
  rfl

theorem fetchBytes_error {s : State} (h : memSize < s.pc.toNat + 2) :
    fetchBytes s = .error (.memOutOfRange s.pc.toNat 2) := memRead_error h

/-- Everything a cycle can do: a fetch past memory, an unmatched word, or an instruction. -/
theorem cycle_cases (run : Instr → State → Host.Outcome State Fault Refusal) (s : State) :
    (memSize < s.pc.toNat + 2 ∧
      cycle run s = .next (s.markStepped.raiseAt s.pc (.memOutOfRange s.pc.toNat 2))) ∨
    (∃ w, s.pc.toNat + 2 ≤ memSize ∧ decode (wordAt s s.pc.toNat) = .unmatched w ∧ cycle run s = .next (s.entry.diag w)) ∨
    (∃ i, s.pc.toNat + 2 ≤ memSize ∧ decode (wordAt s s.pc.toNat) = .instr i ∧ cycle run s = run i s.entry) := by
  rcases Nat.lt_or_ge memSize (s.pc.toNat + 2) with h | h
  · exact .inl ⟨h, by simp [cycle, fetchBytes_error h]⟩
  · right
    cases hd : decode (wordAt s s.pc.toNat) with
    | unmatched w =>
      refine .inl ⟨w, h, rfl, ?_⟩
      simp only [cycle, fetchBytes_ok h, runBytes, decodeBytes]
      rw [show wordOfBytes _ _ = wordAt s s.pc.toNat from rfl, hd]
      rfl
    | instr i =>
      refine .inr ⟨i, h, rfl, ?_⟩
      simp only [cycle, fetchBytes_ok h, runBytes, decodeBytes]
      rw [show wordOfBytes _ _ = wordAt s s.pc.toNat from rfl, hd]

/-- Everything a step that moves can do. -/
theorem step_cases {s t : State} (h : step s = .next t) :
    s.Safe ∧
    ((memSize < s.pc.toNat + 2 ∧ t = s.markStepped.raiseAt s.pc (.memOutOfRange s.pc.toNat 2)) ∨
     (∃ w, s.pc.toNat + 2 ≤ memSize ∧ decode (wordAt s s.pc.toNat) = .unmatched w ∧ t = s.entry.diag w) ∨
     (∃ i, s.pc.toNat + 2 ≤ memSize ∧ decode (wordAt s s.pc.toNat) = .instr i ∧ exec i s.entry = .next t)) := by
  obtain ⟨hr, hm, hc⟩ := whenEnabled_next h
  refine ⟨⟨hr, hm⟩, ?_⟩
  rcases cycle_cases exec s with ⟨hp, he⟩ | ⟨w, hp, hd, he⟩ | ⟨i, hp, hd, he⟩
  · rw [hc] at he
    exact .inl ⟨hp, Host.Outcome.next.inj he⟩
  · rw [hc] at he
    exact .inr (.inl ⟨w, hp, hd, Host.Outcome.next.inj he⟩)
  · exact .inr (.inr ⟨i, hp, hd, he ▸ hc⟩)

end Sys2Proof.Machine
end

