-- ==== Sys2Proof/Laws/Display.lean ====
section
/-! SUPPORT. What a draw can do (spec 43_display R213-R216): it is the plotting of a list of cells with distinct coordinates, so its
result does not depend on the order, and a pixel changes exactly where a cell has a 1 bit. -/

namespace Sys2Proof.Machine

/-- A pixel coordinate and the sprite bit that falls on it. -/
abbrev SpriteCell := (Fin 64 × Fin 32) × Bool

/-- Plot cells in order. -/
def plotAll (L : List SpriteCell) (c : Canvas) : Canvas := L.foldl (fun c p => plot c p.1.1 p.1.2 p.2) c

/-- The cells of one sprite row. -/
def rowCells (px py : Byte) (j : Nat) (b : Byte) : List SpriteCell :=
  (List.range 8).map fun i => ((spriteColumn px i, spriteRow py j), spriteBit b i)

/-- The cells of a sprite whose first row is row j. -/
def spriteCells (px py : Byte) (j : Nat) : List Byte → List SpriteCell
  | [] => []
  | b :: bs => rowCells px py j b ++ spriteCells px py (j + 1) bs

theorem drawRow_eq_plotAll (px py : Byte) (j : Nat) (b : Byte) (c : Canvas) :
    drawRow px py j b c = plotAll (rowCells px py j b) c := by
  simp only [drawRow, plotAll, rowCells, List.foldl_map]

theorem drawRows_eq_plotAll (px py : Byte) (j : Nat) (bs : List Byte) (c : Canvas) :
    drawRows px py j bs c = plotAll (spriteCells px py j bs) c := by
  induction bs generalizing j c with
  | nil => rfl
  | cons b bs ih =>
    rw [drawRows, ih, spriteCells, drawRow_eq_plotAll, plotAll, plotAll, plotAll, List.foldl_append]

theorem getPixel_plot (c : Canvas) (p : SpriteCell) (cx : Fin 64) (cy : Fin 32) :
    getPixel (plot c p.1.1 p.1.2 p.2).fb cx cy =
      if p = ((cx, cy), true) then !(getPixel c.fb cx cy) else getPixel c.fb cx cy := by
  obtain ⟨⟨ex, ey⟩, bit⟩ := p
  cases bit
  · simp [plot]
  · simp only [plot, if_true, getPixel_setPixel, Prod.mk.injEq, and_true]
    split
    · next h => rw [h.1, h.2]
    · rfl

theorem plot_collision (c : Canvas) (p : SpriteCell) :
    (plot c p.1.1 p.1.2 p.2).collision = true ↔
      c.collision = true ∨ p.2 = true ∧ getPixel c.fb p.1.1 p.1.2 = true := by
  obtain ⟨⟨ex, ey⟩, bit⟩ := p
  cases bit <;> simp [plot]

/-- With distinct coordinates, a pixel is inverted exactly where a cell with a 1 bit falls on it. -/
theorem getPixel_plotAll {L : List SpriteCell} (h : (L.map Prod.fst).Nodup) (c : Canvas) (cx : Fin 64) (cy : Fin 32) :
    getPixel (plotAll L c).fb cx cy =
      if ((cx, cy), true) ∈ L then !(getPixel c.fb cx cy) else getPixel c.fb cx cy := by
  induction L generalizing c with
  | nil => simp [plotAll]
  | cons p L ih =>
    obtain ⟨hp, hL⟩ := List.nodup_cons.mp h
    have hstep : plotAll (p :: L) c = plotAll L (plot c p.1.1 p.1.2 p.2) := rfl
    rw [hstep, ih hL, getPixel_plot]
    by_cases hpe : p = ((cx, cy), true)
    · have hnot : ((cx, cy), true) ∉ L := fun hm => hp (by rw [hpe]; exact List.mem_map_of_mem hm)
      simp [hpe, hnot]
    · have : ((cx, cy), true) ∈ p :: L ↔ ((cx, cy), true) ∈ L := by
        simp [List.mem_cons, Ne.symm hpe]
      simp [hpe, this]

/-- With distinct coordinates, a collision is noted exactly where a cell with a 1 bit falls on a set pixel. -/
theorem plotAll_collision {L : List SpriteCell} (h : (L.map Prod.fst).Nodup) (c : Canvas) :
    (plotAll L c).collision = true ↔
      c.collision = true ∨ ∃ cx cy, ((cx, cy), true) ∈ L ∧ getPixel c.fb cx cy = true := by
  induction L generalizing c with
  | nil => simp [plotAll]
  | cons p L ih =>
    obtain ⟨hp, hL⟩ := List.nodup_cons.mp h
    have hstep : plotAll (p :: L) c = plotAll L (plot c p.1.1 p.1.2 p.2) := rfl
    rw [hstep, ih hL, plot_collision]
    constructor
    · rintro ((hc | ⟨hb, hs⟩) | ⟨cx, cy, hm, hs⟩)
      · exact .inl hc
      · exact .inr ⟨p.1.1, p.1.2, by rw [← hb]; exact List.mem_cons_self, hs⟩
      · refine .inr ⟨cx, cy, List.mem_cons_of_mem _ hm, ?_⟩
        have hne : p ≠ ((cx, cy), true) := fun he => hp (by rw [he]; exact List.mem_map_of_mem hm)
        rwa [getPixel_plot, if_neg hne] at hs
    · rintro (hc | ⟨cx, cy, hm, hs⟩)
      · exact .inl (.inl hc)
      · rcases List.mem_cons.mp hm with rfl | hm
        · exact .inl (.inr ⟨rfl, hs⟩)
        · refine .inr ⟨cx, cy, hm, ?_⟩
          have hne : p ≠ ((cx, cy), true) := fun he => hp (by rw [he]; exact List.mem_map_of_mem hm)
          rwa [getPixel_plot, if_neg hne]

theorem mem_spriteCells {px py : Byte} {j : Nat} {bs : List Byte} {q : SpriteCell} :
    q ∈ spriteCells px py j bs ↔
      ∃ k i, ∃ h : k < bs.length, i < 8 ∧ q = ((spriteColumn px i, spriteRow py (j + k)), spriteBit bs[k] i) := by
  induction bs generalizing j with
  | nil => simp [spriteCells]
  | cons b bs ih =>
    simp only [spriteCells, List.mem_append, ih, rowCells, List.mem_map, List.mem_range]
    constructor
    · rintro (⟨i, hi, rfl⟩ | ⟨k, i, hk, hi, rfl⟩)
      · exact ⟨0, i, by simp, hi, rfl⟩
      · exact ⟨k + 1, i, by simpa using hk, hi, by simp [Nat.add_assoc, Nat.add_comm 1 k]⟩
    · rintro ⟨k, i, hk, hi, rfl⟩
      cases k with
      | zero => exact .inl ⟨i, hi, rfl⟩
      | succ k =>
        exact .inr ⟨k, i, by simpa using hk, hi, by simp [Nat.add_assoc, Nat.add_comm 1 k]⟩

/-- R216(b): no pixel is visited twice, for at most 32 rows of 8 columns. -/
theorem spriteCells_nodup (px py : Byte) (j : Nat) (bs : List Byte) (h : bs.length ≤ 32) :
    ((spriteCells px py j bs).map Prod.fst).Nodup := by
  induction bs generalizing j with
  | nil => simp [spriteCells]
  | cons b bs ih =>
    simp only [List.length_cons] at h
    rw [spriteCells, List.map_append, List.nodup_append]
    refine ⟨?_, ih (j + 1) (by omega), ?_⟩
    · rw [rowCells, List.map_map]
      refine List.Nodup.map_on ?_ List.nodup_range
      intro a ha b' hb hab
      simp only [List.mem_range] at ha hb
      simp only [Function.comp_apply, Prod.mk.injEq, and_true, spriteColumn, Fin.ext_iff, Fin.val_ofNat] at hab
      omega
    · intro q hq q' hq' he
      obtain ⟨⟨u, c1⟩, hu, rfl⟩ := List.mem_map.mp hq
      obtain ⟨⟨w, c2⟩, hw, rfl⟩ := List.mem_map.mp hq'
      obtain ⟨i, _, hi⟩ := List.mem_map.mp hu
      obtain ⟨k, i', hk, _, hi'⟩ := mem_spriteCells.mp hw
      simp only [Prod.mk.injEq] at hi hi'
      have hrow : (spriteRow py j).val = (spriteRow py (j + 1 + k)).val := by
        have h1 := congrArg Prod.snd (hi.1.trans (he.trans hi'.1))
        exact congrArg Fin.val h1
      simp only [spriteRow, Fin.val_ofNat] at hrow
      omega

/-- What `DRW` leaves in the framebuffer (R213): a pixel is inverted exactly under a 1 bit of the sprite. -/
theorem getPixel_drawSprite (s : State) (x y : Reg) (sprite : List Byte) (h : sprite.length ≤ 32) (cx : Fin 64) (cy : Fin 32) :
    getPixel (drawSprite s x y sprite).fb cx cy =
      if ((cx, cy), true) ∈ spriteCells (s.getV x) (s.getV y) 0 sprite then !(getPixel s.fb cx cy)
      else getPixel s.fb cx cy := by
  rw [drawSprite, drawRows_eq_plotAll, getPixel_plotAll (spriteCells_nodup _ _ _ _ h)]

/-- When `DRW` reports a collision (R214): some 1 bit of the sprite falls on a set pixel. -/
theorem drawSprite_collision (s : State) (x y : Reg) (sprite : List Byte) (h : sprite.length ≤ 32) :
    (drawSprite s x y sprite).collision = true ↔
      ∃ cx cy, ((cx, cy), true) ∈ spriteCells (s.getV x) (s.getV y) 0 sprite ∧ getPixel s.fb cx cy = true := by
  rw [drawSprite, drawRows_eq_plotAll, plotAll_collision (spriteCells_nodup _ _ _ _ h)]
  simp

theorem setCanvas_frame (s : State) (c : Canvas) : UnchangedBut (fun p => p = .v vf ∨ p.isPixel) s (s.setCanvas c) := by
  intro p hp
  cases p with
  | v y => exact State.getV_setV_other _ _ fun h => hp (.inl (by rw [h]))
  | pixel cx cy => exact absurd (.inr ⟨cx, cy, rfl⟩) hp
  | _ => rfl

end Sys2Proof.Machine
end

