-- ==== Sys2Proof/Laws/Exec.lean ====
section
/-! SUPPORT. Everything an instruction can do to the parts of the state that decide whether the run goes on: it takes a fatal
condition, it is refused, or it leaves `Run`, the mark, the configuration, the launch bit and the keys as they were. -/

namespace Sys2Proof.Machine

/-- The condition an instruction raises from `s`, with the test that raises it (R280, R288). -/
def RaisesFrom (i : Instr) (s : State) (f : Fatal) : Prop :=
  match i with
  | .drw _ _ n => f = .memOutOfRange s.i.toNat n.toNat ∧ memSize < s.i.toNat + n.toNat
  | .ldBVx _ => f = .memOutOfRange s.i.toNat 3 ∧ memSize < s.i.toNat + 3
  | .ldMemVx x | .ldVxMem x =>
    f = .memOutOfRange s.i.toNat (x.toNat + 1) ∧ memSize < s.i.toNat + (x.toNat + 1)
  | .skp x | .sknp x => f = .invalidKey (s.getV x) ∧ 0x0F < (s.getV x).toNat
  | .call _ => f = .stackOverflow stackDepth s.pc ∧ s.cfg.stackOverflow = .fault ∧ s.sp = stackDepth
  | .ret => f = .stackUnderflow ∧ s.cfg.emptyReturn = .fault ∧ s.stack = []
  | _ => False

/-- What an instruction that neither raises nor is refused leaves alone. -/
structure Completes (s t : State) : Prop where
  run     : t.run = s.run
  refused : t.refused = s.refused
  cfg     : t.cfg = s.cfg
  stepped : t.stepped = s.stepped
  keys    : t.keys = s.keys

theorem Completes.refl (s : State) : Completes s s := ⟨rfl, rfl, rfl, rfl, rfl⟩

theorem Completes.skipIf (s : State) (c : Bool) : Completes s (s.skipIf c) := by cases c <;> exact ⟨rfl, rfl, rfl, rfl, rfl⟩

theorem Completes.logicFlag (s : State) : Completes s s.logicFlag := by
  unfold State.logicFlag
  split <;> exact ⟨rfl, rfl, rfl, rfl, rfl⟩

theorem Completes.advanceI (s : State) (x : Reg) : Completes s (advanceI s x) := by
  unfold Sys2Proof.Machine.advanceI
  split <;> exact ⟨rfl, rfl, rfl, rfl, rfl⟩

theorem Completes.writeBytes (s : State) (a : Nat) (bs : List Byte) : Completes s (s.writeBytes a bs) := by
  rw [State.writeBytes_eq]
  exact ⟨rfl, rfl, rfl, rfl, rfl⟩

theorem Completes.loadRegs (s : State) (j : Nat) (bs : List Byte) : Completes s (loadRegs s j bs) := by
  rw [loadRegs_eq]
  exact ⟨rfl, rfl, rfl, rfl, rfl⟩

theorem Completes.trans {s t u : State} (h : Completes s t) (k : Completes t u) : Completes s u :=
  ⟨k.run.trans h.run, k.refused.trans h.refused, k.cfg.trans h.cfg, k.stepped.trans h.stepped, k.keys.trans h.keys⟩

theorem Completes.setV_logicFlag (s : State) (x : Reg) (b : Byte) : Completes s (s.setV x b).logicFlag :=
  Completes.trans (t := s.setV x b) ⟨rfl, rfl, rfl, rfl, rfl⟩ (Completes.logicFlag _)

/-- The three ways an instruction ends. -/
def Ends (i : Instr) (s : State) (r : Host.Outcome State Fault Refusal) : Prop :=
  (∃ f, RaisesFrom i s f ∧ r = .next (s.raiseAt s.fpc f)) ∨
  (i.Refusable ∧ s.cfg.admitGkOps = false ∧ r = .next (s.refuse (encode i))) ∨
  (∃ t, Completes s t ∧ r = .next t)

theorem ends_next {i : Instr} {s t : State} (h : Completes s t) : Ends i s (.next t) := .inr (.inr ⟨t, h, rfl⟩)

theorem ends_admitted {i : Instr} {s t : State} (hr : i.Refusable) (h : Completes s t) :
    Ends i s (admitted s (encode i) t) := by
  cases hc : s.cfg.admitGkOps with
  | true => rw [admitted_of_true hc]; exact ends_next h
  | false => exact .inr (.inl ⟨hr, hc, admitted_of_false hc _ _⟩)

theorem ends_key {i : Instr} {s : State} {x : Reg} (g : Bool → State) (hg : ∀ p, Completes s (g p))
    (hi : ∀ f, f = .invalidKey (s.getV x) ∧ 0x0F < (s.getV x).toNat → RaisesFrom i s f) :
    Ends i s (complete s ((isPressed s (s.getV x)).map g)) := by
  rcases Nat.lt_or_ge 0x0F (s.getV x).toNat with h | h
  · rw [isPressed_error h]
    exact .inl ⟨_, hi _ ⟨rfl, h⟩, rfl⟩
  · rw [isPressed_ok h]
    exact ends_next (hg _)

theorem ends_read {i : Instr} {s : State} {n : Nat} (g : List Byte → State) (hg : ∀ bs, Completes s (g bs))
    (hi : ∀ f, f = .memOutOfRange s.i.toNat n ∧ memSize < s.i.toNat + n → RaisesFrom i s f) :
    Ends i s (complete s ((memRead s (indirect s) n).map g)) := by
  rcases Nat.lt_or_ge memSize (s.i.toNat + n) with h | h
  · rw [show memRead s (indirect s) n = _ from memRead_error h]
    exact .inl ⟨_, hi _ ⟨rfl, h⟩, rfl⟩
  · rw [show memRead s (indirect s) n = _ from memRead_ok h]
    exact ends_next (hg _)

theorem ends_write {i : Instr} {s : State} {bs : List Byte} (g : State → State)
    (hg : ∀ t, Completes s t → Completes s (g t))
    (hi : ∀ f, f = .memOutOfRange s.i.toNat bs.length ∧ memSize < s.i.toNat + bs.length → RaisesFrom i s f) :
    Ends i s (complete s ((memWrite s (indirect s) bs).map g)) := by
  rcases Nat.lt_or_ge memSize (s.i.toNat + bs.length) with h | h
  · rw [show memWrite s (indirect s) bs = _ from memWrite_error h]
    exact .inl ⟨_, hi _ ⟨rfl, h⟩, rfl⟩
  · rw [show memWrite s (indirect s) bs = _ from memWrite_ok h]
    exact ends_next (hg _ (Completes.writeBytes _ _ _))

/-- Every instruction ends in one of the three ways, from every state. -/
theorem exec_ends (i : Instr) (s : State) : Ends i s (exec i s) := by
  cases i
  case sys => exact ends_next ⟨rfl, rfl, rfl, rfl, rfl⟩
  case cls => exact ends_next ⟨rfl, rfl, rfl, rfl, rfl⟩
  case ret =>
    simp only [exec, execRet]
    rcases pop_cases s with ⟨l, a, _, h⟩ | ⟨_, _, h⟩ | ⟨he, hc, h⟩ <;> rw [h]
    · exact ends_next ⟨rfl, rfl, rfl, rfl, rfl⟩
    · exact ends_next ⟨rfl, rfl, rfl, rfl, rfl⟩
    · exact .inl ⟨_, ⟨rfl, hc, he⟩, rfl⟩
  case call nnn =>
    simp only [exec, execCall]
    rcases push_cases (s := s) (a := s.pc) rfl with ⟨hc, hs, h⟩ | ⟨_, h⟩ <;> rw [h]
    · rw [hs]
      exact .inl ⟨_, ⟨rfl, hc, hs⟩, rfl⟩
    · exact ends_next ⟨rfl, rfl, rfl, rfl, rfl⟩
  case jp => exact ends_next ⟨rfl, rfl, rfl, rfl, rfl⟩
  case seImm => exact ends_next (Completes.skipIf _ _)
  case sneImm => exact ends_next (Completes.skipIf _ _)
  case seReg => exact ends_next (Completes.skipIf _ _)
  case sneReg => exact ends_next (Completes.skipIf _ _)
  case ldImm => exact ends_next ⟨rfl, rfl, rfl, rfl, rfl⟩
  case addImm => exact ends_next ⟨rfl, rfl, rfl, rfl, rfl⟩
  case ldReg => exact ends_admitted trivial ⟨rfl, rfl, rfl, rfl, rfl⟩
  case jpV0 => exact ends_admitted trivial ⟨rfl, rfl, rfl, rfl, rfl⟩
  case rnd => exact ends_admitted trivial ⟨rfl, rfl, rfl, rfl, rfl⟩
  case ldFVx => exact ends_admitted trivial ⟨rfl, rfl, rfl, rfl, rfl⟩
  case orReg => exact ends_next (Completes.setV_logicFlag _ _ _)
  case andReg => exact ends_next (Completes.setV_logicFlag _ _ _)
  case xorReg => exact ends_next (Completes.setV_logicFlag _ _ _)
  case addReg => exact ends_next ⟨rfl, rfl, rfl, rfl, rfl⟩
  case subReg => exact ends_next ⟨rfl, rfl, rfl, rfl, rfl⟩
  case shr => exact ends_next ⟨rfl, rfl, rfl, rfl, rfl⟩
  case subn => exact ends_next ⟨rfl, rfl, rfl, rfl, rfl⟩
  case shl => exact ends_next ⟨rfl, rfl, rfl, rfl, rfl⟩
  case ldI => exact ends_next ⟨rfl, rfl, rfl, rfl, rfl⟩
  case addIVx => exact ends_next ⟨rfl, rfl, rfl, rfl, rfl⟩
  case drw x y n => exact ends_read _ (fun _ => ⟨rfl, rfl, rfl, rfl, rfl⟩) fun _ h => h
  case skp x => exact ends_key (x := x) _ (fun p => Completes.skipIf s p) fun _ h => h
  case sknp x => exact ends_key (x := x) _ (fun p => Completes.skipIf s (!p)) fun _ h => h
  case ldVxDt => exact ends_next ⟨rfl, rfl, rfl, rfl, rfl⟩
  case ldVxK x =>
    simp only [exec, execLdVxK, pollWaitedKey, armWait_waitedKey]
    cases s.waitedKey <;> exact ends_next ⟨rfl, rfl, rfl, rfl, rfl⟩
  case ldDtVx => exact ends_next ⟨rfl, rfl, rfl, rfl, rfl⟩
  case ldStVx => exact ends_next ⟨rfl, rfl, rfl, rfl, rfl⟩
  case ldBVx x =>
    simp only [exec, execLdBVx]
    have := ends_write (i := .ldBVx x) (s := s) (bs := bcdDigits (s.getV x)) id (fun _ h => h) fun _ h => h
    rwa [show Except.map id (memWrite s (indirect s) (bcdDigits (s.getV x))) = memWrite s (indirect s) (bcdDigits (s.getV x))
      from by cases memWrite s (indirect s) (bcdDigits (s.getV x)) <;> rfl] at this
  case ldMemVx x =>
    refine ends_write (fun t => advanceI t x) (fun t h => h.trans (Completes.advanceI t x)) fun f h => ?_
    rwa [dumpBytes_length] at h
  case ldVxMem x =>
    exact ends_read _ (fun bs => (Completes.loadRegs s 0 bs).trans (Completes.advanceI _ x)) fun _ h => h

end Sys2Proof.Machine
end

