-- ==== Sys2Proof/Laws/PerInstr.lean ====
section
/-! SUPPORT. Laws made per instruction: the top nibble of an instruction's word is its family's (spec 30_encoding R95, R98). -/

namespace Sys2Proof.Laws.EncodeFamily

/-- The family nibble of R98's table. -/
def nibble : Instr → Nib
  | .sys _ => 0x0#4
  | .cls => 0x0#4
  | .ret => 0x0#4
  | .jp _ => 0x1#4
  | .call _ => 0x2#4
  | .seImm _ _ => 0x3#4
  | .sneImm _ _ => 0x4#4
  | .seReg _ _ => 0x5#4
  | .ldImm _ _ => 0x6#4
  | .addImm _ _ => 0x7#4
  | .ldReg _ _ => 0x8#4
  | .orReg _ _ => 0x8#4
  | .andReg _ _ => 0x8#4
  | .xorReg _ _ => 0x8#4
  | .addReg _ _ => 0x8#4
  | .subReg _ _ => 0x8#4
  | .shr _ _ => 0x8#4
  | .subn _ _ => 0x8#4
  | .shl _ _ => 0x8#4
  | .sneReg _ _ => 0x9#4
  | .ldI _ => 0xA#4
  | .jpV0 _ => 0xB#4
  | .rnd _ _ => 0xC#4
  | .drw _ _ _ => 0xD#4
  | .skp _ => 0xE#4
  | .sknp _ => 0xE#4
  | .ldVxDt _ => 0xF#4
  | .ldVxK _ => 0xF#4
  | .ldDtVx _ => 0xF#4
  | .ldStVx _ => 0xF#4
  | .addIVx _ => 0xF#4
  | .ldFVx _ => 0xF#4
  | .ldBVx _ => 0xF#4
  | .ldMemVx _ => 0xF#4
  | .ldVxMem _ => 0xF#4

/-- The word of `i` is in its family. -/
def Statement (i : Instr) : Prop := fieldOp (encode i) = nibble i

theorem sys (nnn : Addr12) : Statement (.sys nnn) := fieldOp_formatFA _ _
theorem cls : Statement .cls := rfl
theorem ret : Statement .ret := rfl
theorem jp (nnn : Addr12) : Statement (.jp nnn) := fieldOp_formatFA _ _
theorem call (nnn : Addr12) : Statement (.call nnn) := fieldOp_formatFA _ _
theorem seImm (x : Reg) (nn : Byte) : Statement (.seImm x nn) := fieldOp_formatFXNN _ _ _
theorem sneImm (x : Reg) (nn : Byte) : Statement (.sneImm x nn) := fieldOp_formatFXNN _ _ _
theorem seReg (x y : Reg) : Statement (.seReg x y) := fieldOp_formatFXYN _ _ _ _
theorem ldImm (x : Reg) (nn : Byte) : Statement (.ldImm x nn) := fieldOp_formatFXNN _ _ _
theorem addImm (x : Reg) (nn : Byte) : Statement (.addImm x nn) := fieldOp_formatFXNN _ _ _
theorem ldReg (x y : Reg) : Statement (.ldReg x y) := fieldOp_formatFXYN _ _ _ _
theorem orReg (x y : Reg) : Statement (.orReg x y) := fieldOp_formatFXYN _ _ _ _
theorem andReg (x y : Reg) : Statement (.andReg x y) := fieldOp_formatFXYN _ _ _ _
theorem xorReg (x y : Reg) : Statement (.xorReg x y) := fieldOp_formatFXYN _ _ _ _
theorem addReg (x y : Reg) : Statement (.addReg x y) := fieldOp_formatFXYN _ _ _ _
theorem subReg (x y : Reg) : Statement (.subReg x y) := fieldOp_formatFXYN _ _ _ _
theorem shr (x y : Reg) : Statement (.shr x y) := fieldOp_formatFXYN _ _ _ _
theorem subn (x y : Reg) : Statement (.subn x y) := fieldOp_formatFXYN _ _ _ _
theorem shl (x y : Reg) : Statement (.shl x y) := fieldOp_formatFXYN _ _ _ _
theorem sneReg (x y : Reg) : Statement (.sneReg x y) := fieldOp_formatFXYN _ _ _ _
theorem ldI (nnn : Addr12) : Statement (.ldI nnn) := fieldOp_formatFA _ _
theorem jpV0 (nnn : Addr12) : Statement (.jpV0 nnn) := fieldOp_formatFA _ _
theorem rnd (x : Reg) (nn : Byte) : Statement (.rnd x nn) := fieldOp_formatFXNN _ _ _
theorem drw (x y : Reg) (n : Nib) : Statement (.drw x y n) := fieldOp_formatFXYN _ _ _ _
theorem skp (x : Reg) : Statement (.skp x) := fieldOp_formatFXNN _ _ _
theorem sknp (x : Reg) : Statement (.sknp x) := fieldOp_formatFXNN _ _ _
theorem ldVxDt (x : Reg) : Statement (.ldVxDt x) := fieldOp_formatFXNN _ _ _
theorem ldVxK (x : Reg) : Statement (.ldVxK x) := fieldOp_formatFXNN _ _ _
theorem ldDtVx (x : Reg) : Statement (.ldDtVx x) := fieldOp_formatFXNN _ _ _
theorem ldStVx (x : Reg) : Statement (.ldStVx x) := fieldOp_formatFXNN _ _ _
theorem addIVx (x : Reg) : Statement (.addIVx x) := fieldOp_formatFXNN _ _ _
theorem ldFVx (x : Reg) : Statement (.ldFVx x) := fieldOp_formatFXNN _ _ _
theorem ldBVx (x : Reg) : Statement (.ldBVx x) := fieldOp_formatFXNN _ _ _
theorem ldMemVx (x : Reg) : Statement (.ldMemVx x) := fieldOp_formatFXNN _ _ _
theorem ldVxMem (x : Reg) : Statement (.ldVxMem x) := fieldOp_formatFXNN _ _ _

end Sys2Proof.Laws.EncodeFamily
end

