-- ==== Sys2Proof/Tests/Slice0.lean ====
section
/-! SUPPORT. The model's own tests. Expected results are those of spec/95_test_vectors.md (ids W and V in the comments) and of the
words of spec/30_encoding R93 and R98, written out by hand. -/

namespace Sys2Proof.Tests
open Sys2Proof.Machine

/-! ### Helpers -/

/-- The next state, where there is one. -/
def nextOf : Host.Outcome State Fault Refusal → Option State
  | .next s => some s
  | .fault _ => none
  | .refused _ => none

/-- What `f` reads in the state after one step that runs the word `w`, placed at PC of `s`. -/
def after {α : Type} (s : State) (w : Nat) (f : State → α) : Option α := (nextOf (step (s.withFetchWord 16 w))).map f

/-- Reset, with registers set. -/
def withV (l : List (Reg × Byte)) : State := l.foldl (fun s p => s.setV p.1 p.2) State.reset

/-- Reset in another configuration. -/
def resetIn (c : Config) : State := State.resetWith c none 0

/-! ### Well-formedness: the one check, and its refusals (R98 row 1, R130) -/

theorem test_sys_00E0_ill_formed : (Instr.sys 0x0E0#12).wellFormed = false := by decide
theorem test_sys_00EE_ill_formed : (Instr.sys 0x0EE#12).wellFormed = false := by decide
theorem test_sys_01E0_well_formed : (Instr.sys 0x1E0#12).wellFormed = true := by decide

/-! ### Decoding: one word per constructor, bit by bit from R93 and R98, and the encoder on the same instruction -/

theorem test_decode_family_0 :
    decode 0b0000000100100011#16 = .instr (.sys 0x123#12) ∧ decode 0b0000000011100000#16 = .instr .cls ∧
    decode 0b0000000011101110#16 = .instr .ret ∧ decode 0b0000000111100000#16 = .instr (.sys 0x1E0#12) := by decide

theorem test_decode_addresses :
    decode 0b0001001100000000#16 = .instr (.jp 0x300#12) ∧ decode 0b0010010000000000#16 = .instr (.call 0x400#12) ∧
    decode 0b1010111111111111#16 = .instr (.ldI 0xFFF#12) ∧ decode 0b1011001100000000#16 = .instr (.jpV0 0x300#12) := by decide

theorem test_decode_immediates :
    decode 0b0011001100101010#16 = .instr (.seImm 0x3#4 0x2A#8) ∧ decode 0b0100001100101010#16 = .instr (.sneImm 0x3#4 0x2A#8) ∧
    decode 0b0110111101000010#16 = .instr (.ldImm 0xF#4 0x42#8) ∧ decode 0b0111001000000101#16 = .instr (.addImm 0x2#4 0x05#8) ∧
    decode 0b1100000000001111#16 = .instr (.rnd 0x0#4 0x0F#8) := by decide

theorem test_decode_registers :
    decode 0b0101000100100000#16 = .instr (.seReg 0x1#4 0x2#4) ∧ decode 0b0101000100100001#16 = .instr (.seReg 0x1#4 0x2#4) ∧
    decode 0b1001000100100000#16 = .instr (.sneReg 0x1#4 0x2#4) ∧ decode 0b1001000100101111#16 = .instr (.sneReg 0x1#4 0x2#4) := by
  decide

theorem test_decode_family_8 :
    decode 0b1000000101010000#16 = .instr (.ldReg 0x1#4 0x5#4) ∧ decode 0b1000000000010001#16 = .instr (.orReg 0x0#4 0x1#4) ∧
    decode 0b1000000000010010#16 = .instr (.andReg 0x0#4 0x1#4) ∧ decode 0b1000000000010011#16 = .instr (.xorReg 0x0#4 0x1#4) ∧
    decode 0b1000000000010100#16 = .instr (.addReg 0x0#4 0x1#4) ∧ decode 0b1000000000010101#16 = .instr (.subReg 0x0#4 0x1#4) ∧
    decode 0b1000000000010110#16 = .instr (.shr 0x0#4 0x1#4) ∧ decode 0b1000000000010111#16 = .instr (.subn 0x0#4 0x1#4) ∧
    decode 0b1000000000011110#16 = .instr (.shl 0x0#4 0x1#4) := by decide

theorem test_decode_families_D_E :
    decode 0b1101001000110010#16 = .instr (.drw 0x2#4 0x3#4 0x2#4) ∧ decode 0b1110010010011110#16 = .instr (.skp 0x4#4) ∧
    decode 0b1110010010100001#16 = .instr (.sknp 0x4#4) := by decide

theorem test_decode_family_F :
    decode 0b1111000100000111#16 = .instr (.ldVxDt 0x1#4) ∧ decode 0b1111001100001010#16 = .instr (.ldVxK 0x3#4) ∧
    decode 0b1111000000010101#16 = .instr (.ldDtVx 0x0#4) ∧ decode 0b1111000000011000#16 = .instr (.ldStVx 0x0#4) ∧
    decode 0b1111001000011110#16 = .instr (.addIVx 0x2#4) ∧ decode 0b1111001100101001#16 = .instr (.ldFVx 0x3#4) ∧
    decode 0b1111000000110011#16 = .instr (.ldBVx 0x0#4) ∧ decode 0b1111000101010101#16 = .instr (.ldMemVx 0x1#4) ∧
    decode 0b1111001001100101#16 = .instr (.ldVxMem 0x2#4) := by decide

/-- V6, V7. -/
theorem test_unmatched_words :
    decode 0x8008#16 = .unmatched 0x8008#16 ∧ decode 0x800F#16 = .unmatched 0x800F#16 ∧
    decode 0xE000#16 = .unmatched 0xE000#16 ∧ decode 0xF0FF#16 = .unmatched 0xF0FF#16 ∧
    decode 0xF001#16 = .unmatched 0xF001#16 := by decide

theorem test_encode_words :
    encode (.drw 0x2#4 0x3#4 0x2#4) = 0xD232#16 ∧ encode (.ldMemVx 0x1#4) = 0xF155#16 ∧ encode (.shl 0x0#4 0x1#4) = 0x801E#16 ∧
    encode (.call 0x400#12) = 0x2400#16 ∧ encode (.seImm 0x3#4 0x2A#8) = 0x332A#16 := by decide

/-- V1: the byte at the lower address is the high one. -/
theorem test_bytes_big_endian : decodeBytes [0x12#8, 0x34#8, 0xFF#8] = some (.instr (.jp 0x234#12), [0xFF#8]) := by decide

theorem test_table_word : decodeTableWord 16 0xF265 = some (.ldVxMem 0x2#4) ∧ decodeTableWord 16 0xE000 = none := by decide

/-! ### Control flow -/

/-- V5: an odd PC fetches like any other. -/
theorem test_odd_pc : after { State.reset with pc := 0x201#16 } 0x6105 (fun t => (t.getV 1#4, t.pc)) =
    some (0x05#8, 0x203#16) := by decide

/-- V4: the fetch needs two bytes. -/
theorem test_fetch_past_memory : (nextOf (step { State.reset with pc := 0xFFF#16 })).map (fun t => (t.run, t.pc)) =
    some (.faulted (.memOutOfRange 0xFFF 2) 0xFFF#16, 0xFFF#16) := by decide

/-- V8: 0x01E0 is no CLS. -/
theorem test_sys : after State.reset 0x01E0 (fun t => (t.diagOut, t.pc)) = some ([⟨0x01E0#16, 0x200#16⟩], 0x202#16) := by decide

theorem test_unmatched_step : after State.reset 0x8008 (fun t => (t.diagOut, t.pc)) =
    some ([⟨0x8008#16, 0x200#16⟩], 0x202#16) := by decide

theorem test_jp : after State.reset 0x1300 (·.pc) = some 0x300#16 := by decide

/-- V15, W9. -/
theorem test_call : after State.reset 0x2400 (fun t => (t.stack, t.pc)) = some ([0x202#16], 0x400#16) := by decide

/-- V16. -/
theorem test_call_overflow : after { State.reset with stack := List.replicate 16 0x202#16 } 0x2400 (fun t => (t.run, t.pc, t.sp)) =
    some (.faulted (.stackOverflow 16 0x202#16) 0x200#16, 0x200#16, 16) := by decide

/-- V18. -/
theorem test_ret : after { State.reset with stack := [0x202#16, 0x30A#16] } 0x00EE (fun t => (t.pc, t.stack)) =
    some (0x30A#16, [0x202#16]) := by decide

/-- V19, V20. -/
theorem test_ret_empty :
    after State.reset 0x00EE (fun t => (t.pc, t.run)) = some (0x000#16, .running) ∧
    after (resetIn { referenceConfig with emptyReturn := .fault }) 0x00EE (fun t => (t.pc, t.run)) =
      some (0x200#16, .faulted .stackUnderflow 0x200#16) := by decide

/-- V21, V22. -/
theorem test_skip_immediate :
    after (withV [(3#4, 0x2A#8)]) 0x332A (·.pc) = some 0x204#16 ∧ after (withV [(3#4, 0x2A#8)]) 0x3329 (·.pc) = some 0x202#16 ∧
    after (withV [(3#4, 0x2A#8)]) 0x432A (·.pc) = some 0x202#16 ∧
    after (withV [(3#4, 0x2A#8)]) 0x4300 (·.pc) = some 0x204#16 := by decide

/-- V24, V25, V10. -/
theorem test_skip_registers :
    after (withV [(1#4, 7#8), (2#4, 8#8)]) 0x5120 (·.pc) = some 0x202#16 ∧
    after (withV [(1#4, 7#8), (2#4, 8#8)]) 0x5110 (·.pc) = some 0x204#16 ∧
    after (withV [(1#4, 7#8), (2#4, 8#8)]) 0x912F (·.pc) = some 0x204#16 ∧
    after (withV [(1#4, 7#8), (2#4, 8#8)]) 0x9110 (·.pc) = some 0x202#16 := by decide

/-- V29. -/
theorem test_jp_v0 : after (withV [(0#4, 0xFF#8)]) 0xBFFF (·.pc) = some 0x10FE#16 := by decide

/-! ### Register loads and arithmetic -/

/-- V33: no carry flag. -/
theorem test_add_immediate : after (withV [(1#4, 0x05#8), (vf, 0x77#8)]) 0x71FF (fun t => (t.getV 1#4, t.getV vf)) =
    some (0x04#8, 0x77#8) := by decide

/-- V36. -/
theorem test_copy : after (withV [(5#4, 0x3C#8), (vf, 0x77#8)]) 0x8150 (fun t => (t.getV 1#4, t.getV vf)) =
    some (0x3C#8, 0x77#8) := by decide

/-- V11: refused, with no architectural effect, and the run goes no further. -/
theorem test_copy_refused :
    after ((resetIn { referenceConfig with admitGkOps := false }).setV 5#4 0x3C#8) 0x8150
      (fun t => (t.getV 1#4, t.pc, t.refused, (nextOf (step t)).isSome)) =
      some (0x00#8, 0x200#16, some ⟨0x8150#16, 0x200#16⟩, false) := by decide

/-- V37, V38. -/
theorem test_or :
    after (withV [(0#4, 0x0F#8), (1#4, 0xF0#8), (vf, 0x55#8)]) 0x8011 (fun t => (t.getV 0#4, t.getV vf)) = some (0xFF#8, 0x00#8) ∧
    after (((resetIn { referenceConfig with logicVf := .preserve }).setV vf 0x0F#8).setV 1#4 0xF0#8) 0x8F11 (·.getV vf) =
      some 0xFF#8 := by decide

/-- V39, V40. -/
theorem test_and_xor :
    after (withV [(0#4, 0x3C#8), (1#4, 0x0F#8)]) 0x8012 (·.getV 0#4) = some 0x0C#8 ∧
    after (withV [(0#4, 0x3C#8), (1#4, 0x0F#8)]) 0x8013 (·.getV 0#4) = some 0x33#8 := by decide

/-- V44, V45: the flag is last, and VF is read before it is written. -/
theorem test_add :
    after (withV [(vf, 0xFF#8), (1#4, 0x01#8)]) 0x8F14 (·.getV vf) = some 0x01#8 ∧
    after (withV [(0#4, 0x10#8), (vf, 0x01#8)]) 0x80F4 (fun t => (t.getV 0#4, t.getV vf)) = some (0x11#8, 0x00#8) := by decide

/-- V46, V47. -/
theorem test_sub :
    after (withV [(0#4, 0x03#8), (1#4, 0x03#8)]) 0x8015 (fun t => (t.getV 0#4, t.getV vf)) = some (0x00#8, 0x01#8) ∧
    after (withV [(0#4, 0x00#8), (1#4, 0x01#8)]) 0x8015 (fun t => (t.getV 0#4, t.getV vf)) = some (0xFF#8, 0x00#8) := by decide

/-- V49, V51: the source is Vy. -/
theorem test_shr :
    after (withV [(0#4, 0xFF#8), (1#4, 0x02#8)]) 0x8016 (fun t => (t.getV 0#4, t.getV vf)) = some (0x01#8, 0x00#8) ∧
    after (withV [(vf, 0x03#8)]) 0x80F6 (fun t => (t.getV 0#4, t.getV vf)) = some (0x01#8, 0x01#8) := by decide

/-- V53, V54. -/
theorem test_subn :
    after (withV [(0#4, 0x03#8), (1#4, 0x05#8)]) 0x8017 (fun t => (t.getV 0#4, t.getV vf)) = some (0x02#8, 0x01#8) ∧
    after (withV [(0#4, 0x01#8), (1#4, 0x00#8)]) 0x8017 (fun t => (t.getV 0#4, t.getV vf)) = some (0xFF#8, 0x00#8) := by decide

/-- V56, V58. -/
theorem test_shl :
    after (withV [(1#4, 0x80#8)]) 0x801E (fun t => (t.getV 0#4, t.getV vf)) = some (0x00#8, 0x01#8) ∧
    after (withV [(1#4, 0x40#8)]) 0x8F1E (·.getV vf) = some 0x00#8 := by decide

/-- The draw counter advances, whatever the draw is (R163). -/
theorem test_rnd : after State.reset 0xC00F (fun t => (t.draws, t.pc)) = some (1, 0x202#16) := by decide

/-! ### Index register and memory -/

/-- V64, V65. -/
theorem test_add_i :
    after { withV [(0#4, 0x01#8), (vf, 0x33#8)] with i := 0x0FFF#16 } 0xF01E (fun t => (t.i, t.getV vf)) = some (0x1000#16, 0x33#8) ∧
    after { withV [(0#4, 0x01#8)] with i := 0xFFFF#16 } 0xF01E (·.i) = some 0x0000#16 := by decide

/-- V62, V67. -/
theorem test_ld_i_ld_f :
    after State.reset 0xAFFF (·.i) = some 0x0FFF#16 ∧ after (withV [(3#4, 0x1A#8)]) 0xF329 (·.i) = some 0x0082#16 := by decide

/-- V72: the last three bytes of memory. -/
theorem test_bcd : after { withV [(0#4, 0x9D#8)] with i := 0xFFD#16 } 0xF033
    (fun t => (t.readByte 0xFFD, t.readByte 0xFFE, t.readByte 0xFFF, t.i)) = some (1#8, 5#8, 7#8, 0xFFD#16) := by decide

/-- V73. -/
theorem test_bcd_fault : after { withV [(0#4, 0x9D#8)] with i := 0xFFE#16 } 0xF033 (fun t => (t.run, t.readByte 0xFFE)) =
    some (.faulted (.memOutOfRange 0xFFE 3) 0x200#16, 0x00#8) := by decide

/-- V74. -/
theorem test_dump : after { withV [(0#4, 0x11#8), (1#4, 0x22#8)] with i := 0x400#16 } 0xF155
    (fun t => (t.readByte 0x400, t.readByte 0x401, t.readByte 0x402, t.i)) = some (0x11#8, 0x22#8, 0x00#8, 0x402#16) := by decide

/-- V76. -/
theorem test_dump_fault : after { State.reset with i := 0xFF1#16 } 0xFF55 (fun t => (t.run, t.i)) =
    some (.faulted (.memOutOfRange 0xFF1 16) 0x200#16, 0xFF1#16) := by decide

/-- V79, without the increment too (R186). -/
theorem test_load_registers :
    after { (withV [(3#4, 0xEE#8)]).writeBytes 0x300 [1#8, 5#8, 7#8] with i := 0x300#16 } 0xF265
      (fun t => (t.getV 0#4, t.getV 1#4, t.getV 2#4, t.getV 3#4, t.i)) = some (1#8, 5#8, 7#8, 0xEE#8, 0x303#16) ∧
    after { resetIn { referenceConfig with ldstIncI := false } with i := 0x300#16 } 0xF265 (·.i) = some 0x300#16 := by decide

/-- V81. -/
theorem test_load_registers_fault : after { State.reset with i := 0x1000#16 } 0xF065 (·.run) =
    some (.faulted (.memOutOfRange 0x1000 1) 0x200#16) := by decide

/-! ### Framebuffer -/

/-- V88: set to unset, and unset to set. -/
theorem test_draw_collision :
    after { State.reset.writeByte 0x300 0xC0#8 with i := 0x300#16, fb := setPixel clearFb 0 0 true } 0xD011
      (fun t => (getPixel t.fb 0 0, getPixel t.fb 1 0, getPixel t.fb 2 0, t.getV vf)) = some (false, true, false, 0x01#8) := by decide

/-- V90: the column is VF before the reset of VF. -/
theorem test_draw_reads_vf : after { (withV [(vf, 0x05#8)]).writeByte 0x300 0x80#8 with i := 0x300#16 } 0xDF11
    (fun t => (getPixel t.fb 5 0, getPixel t.fb 0 0, t.getV vf)) = some (true, false, 0x00#8) := by decide

/-- V86: no byte is read at 4096, and VF is 0. -/
theorem test_draw_zero_rows : after { withV [(vf, 0x77#8)] with i := 0x1000#16 } 0xD010 (fun t => (t.run, t.getV vf)) =
    some (.running, 0x00#8) := by decide

theorem test_cls : after { withV [(vf, 0x77#8)] with fb := setPixel clearFb 63 31 true } 0x00E0
    (fun t => (getPixel t.fb 63 31, t.getV vf)) = some (false, 0x77#8) := by decide

/-! ### Keys and timers -/

/-- V92, V93. -/
theorem test_key_skips :
    after ((withV [(4#4, 0x0A#8)]).setKey 0xA#4 true) 0xE49E (·.pc) = some 0x204#16 ∧
    after ((withV [(4#4, 0x0A#8)]).setKey 0xA#4 true) 0xE4A1 (·.pc) = some 0x202#16 ∧
    after (withV [(4#4, 0x0A#8)]) 0xE49E (·.pc) = some 0x202#16 ∧ after (withV [(4#4, 0x0A#8)]) 0xE4A1 (·.pc) = some 0x204#16 := by
  decide

/-- V94: never masked to key 0. -/
theorem test_invalid_key : after ((withV [(4#4, 0x10#8)]).setKey 0#4 true) 0xE49E (fun t => (t.run, t.pc)) =
    some (.faulted (.invalidKey 0x10#8) 0x200#16, 0x200#16) := by decide

/-- V95: an unpressed key's release does not resolve the wait; the first pressed key's does. -/
theorem test_key_wait :
    (nextOf (transactAll [.step, .keyRelease 7#4, .keyPress 3#4, .keyPress 5#4, .keyRelease 3#4, .keyRelease 5#4, .step]
      (State.reset.withFetchWord 16 0xF30A))).map (fun t => (t.getV 3#4, t.pc, t.waitArmed, t.waitedKey)) =
      some (0x03#8, 0x202#16, false, none) := by decide

/-- V97: a release before arming does not resolve. -/
theorem test_key_wait_release_before :
    (nextOf (transactAll [.keyPress 7#4, .keyRelease 7#4, .step] (State.reset.withFetchWord 16 0xF30A))).map
      (fun t => (t.pc, t.waitArmed, t.waitedKey)) = some (0x200#16, true, none) := by decide

/-- V99. -/
theorem test_tick_saturates : (nextOf (transactAll [.timerTick, .timerTick] { State.reset with dt := 0x01#8 })).map
    (fun t => (t.dt, t.st)) = some (0x00#8, 0x00#8) := by decide

/-- V100, V101, V102. -/
theorem test_timer_transfers :
    after { State.reset with dt := 0x3A#8 } 0xF107 (·.getV 1#4) = some 0x3A#8 ∧
    after (withV [(0#4, 0x3C#8)]) 0xF015 (·.dt) = some 0x3C#8 ∧ after (withV [(0#4, 0x05#8)]) 0xF018 (·.st) = some 0x05#8 := by decide

/-! ### Faults, reset and load -/

/-- V104. -/
theorem test_faulted_is_stuck :
    (nextOf (transact .timerTick { State.reset with run := .faulted .stackUnderflow 0#16 })).isSome = false ∧
    (nextOf (transact (.keyPress 1#4) { State.reset with run := .faulted .stackUnderflow 0#16 })).isSome = false := by decide

/-- V105: the font's first and last byte, and an empty program area. -/
theorem test_reset_memory :
    State.reset.readByte 0x050 = 0xF0#8 ∧ State.reset.readByte 0x09F = 0x80#8 ∧ State.reset.readByte 0x0A0 = 0x00#8 ∧
    State.reset.readByte 0x200 = 0x00#8 := by decide

/-- R187, glyph by glyph as the table has it: 2 and B. -/
theorem test_font_glyphs :
    (List.range 5).map (fun j => State.reset.readByte (0x050 + 5 * 0x2 + j)) = [0xF0#8, 0x10#8, 0xF0#8, 0x80#8, 0xF0#8] ∧
    (List.range 5).map (fun j => State.reset.readByte (0x050 + 5 * 0xB + j)) = [0xE0#8, 0x90#8, 0xE0#8, 0x90#8, 0xE0#8] := by decide

/-- V108. -/
theorem test_no_font_without_gk : (resetIn { referenceConfig with admitGkOps := false }).readByte 0x050 = 0x00#8 := by decide

/-- A write of what the address reads as unlisted leaves no cell (the canonical form). -/
theorem test_memory_canonical : (State.reset.writeBytes 0x300 [1#8, 2#8]).mem = [(0x300, 1#8), (0x301, 2#8)] ∧
    ((State.reset.writeBytes 0x300 [1#8, 2#8]).writeBytes 0x300 [0#8]).mem = [(0x301, 2#8)] := by decide

/-- R316: no load after the first step. -/
theorem test_load_once : (nextOf (transactAll [.loadProgram [0x12#8, 0x00#8], .step] State.reset)).map (·.pc) = some 0x200#16 ∧
    (nextOf (transactAll [.loadProgram [0x12#8, 0x00#8], .step, .loadProgram []] State.reset)).isSome = false := by decide

/-! ### Witnesses: for each statement of Certificates/Slice0/Obligations.lean that has hypotheses, states and operands that meet
all of them together, and one per clause at the clause's boundary. -/

/-- Reset with the word `w` where the next step fetches. -/
def placed (w : Nat) : State := State.reset.withFetchWord 16 w

/-- Reset in the configuration without the four undescribed instructions. -/
def bareState : State := resetIn { referenceConfig with admitGkOps := false }

/-- The step of `s` answers a next state of which `p` holds. -/
def Steps (s : State) (p : State → Prop) : Prop := ∃ t, step s = .next t ∧ p t

/-- The body of `i` answers, from `s`, a next state of which `p` holds. -/
def Execs (i : Instr) (s : State) (p : State → Prop) : Prop := ∃ t, exec i s = .next t ∧ p t

theorem witness_DecodeOfEncode : (Instr.sys 0x0EF#12).wellFormed = true ∧ (Instr.drw 0xF#4 0xF#4 0xF#4).wellFormed = true := by
  decide

theorem witness_EncodeOfDecode : decode 0x5FFF#16 = .instr (.seReg 0xF#4 0xF#4) ∧ decode 0x9001#16 = .instr (.sneReg 0x0#4 0x0#4) ∧
    decode 0x8FFE#16 = .instr (.shl 0xF#4 0xF#4) := by decide

theorem witness_UnmatchedWords : decode 0x8FFD#16 = .unmatched 0x8FFD#16 ∧ decode 0xE09F#16 = .unmatched 0xE09F#16 ∧
    decode 0xF066#16 = .unmatched 0xF066#16 ∧ decode 0x0000#16 = .instr (.sys 0x000#12) ∧
    decode 0x0FFF#16 = .instr (.sys 0xFFF#12) := by decide

/-- The last word that fits, matched and not; the first PC where none fits; a faulted block. -/
theorem witness_StepFetchesDecodesExecutes :
    let s : State := { State.reset with pc := 0xFFE#16 }.withFetchWord 16 0x6105
    let u : State := { State.reset with pc := 0xFFE#16 }.withFetchWord 16 0xE000
    s.Safe ∧ s.pc.toNat + 2 = 4096 ∧ wordAt s 0xFFE = 0x6105#16 ∧ decode 0x6105#16 = .instr (.ldImm 0x1#4 0x05#8) ∧
    u.Safe ∧ wordAt u 0xFFE = 0xE000#16 ∧ decode 0xE000#16 = .unmatched 0xE000#16 ∧
    { State.reset with pc := 0xFFF#16 }.Safe ∧ 4096 < (0xFFF#16 : Word).toNat + 2 ∧
    { State.reset with run := .faulted .stackUnderflow 0x200#16 }.run = .faulted .stackUnderflow 0x200#16 := by
  unfold State.Safe; decide

theorem witness_UnmatchedWordIsDiagnosedNoOp :
    (placed 0x8008).Safe ∧ wordAt (placed 0x8008) 0x200 = 0x8008#16 ∧ decode 0x8008#16 = .unmatched 0x8008#16 ∧
    (placed 0x0001).Safe ∧ wordAt (placed 0x0001) 0x200 = 0x0001#16 ∧ decode 0x0001#16 = .instr (.sys 0x001#12) := by
  unfold State.Safe; decide

theorem witness_FaultedBlockIsStuck : ({ State.reset with run := .faulted (.invalidKey 0x10#8) 0x200#16 } : State).run =
    .faulted (.invalidKey 0x10#8) 0x200#16 := rfl

/-- A step that raises: V0 = 0x10 is no key. -/
theorem witness_FatalConditionsArePrecise : Steps ((placed 0xE09E).setV 0x0#4 0x10#8) (fun t => t.run ≠ .running) :=
  ⟨_, rfl, by decide⟩

/-- Each code of R280, the fetch among them, each access one byte past the end. -/
theorem witness_FatalConditionsByInstruction :
    Steps { State.reset with pc := 0xFFF#16 } (fun t => t.run = .faulted (.memOutOfRange 0xFFF 2) 0xFFF#16) ∧
    Steps { placed 0xD001 with i := 0x1000#16 } (fun t => t.run = .faulted (.memOutOfRange 0x1000 1) 0x200#16) ∧
    Steps { placed 0xF033 with i := 0xFFE#16 } (fun t => t.run = .faulted (.memOutOfRange 0xFFE 3) 0x200#16) ∧
    Steps { placed 0xFF55 with i := 0xFF1#16 } (fun t => t.run = .faulted (.memOutOfRange 0xFF1 16) 0x200#16) ∧
    Steps { placed 0xF065 with i := 0x1000#16 } (fun t => t.run = .faulted (.memOutOfRange 0x1000 1) 0x200#16) ∧
    Steps ((placed 0xE0A1).setV 0x0#4 0x10#8) (fun t => t.run = .faulted (.invalidKey 0x10#8) 0x200#16) ∧
    Steps { placed 0x2400 with stack := List.replicate 16 0x202#16 }
      (fun t => t.run = .faulted (.stackOverflow 16 0x202#16) 0x200#16) ∧
    Steps ((resetIn { referenceConfig with emptyReturn := .fault }).withFetchWord 16 0x00EE)
      (fun t => t.run = .faulted .stackUnderflow 0x200#16) :=
  ⟨⟨_, rfl, by decide⟩, ⟨_, rfl, by decide⟩, ⟨_, rfl, by decide⟩, ⟨_, rfl, by decide⟩, ⟨_, rfl, by decide⟩, ⟨_, rfl, by decide⟩,
    ⟨_, rfl, by decide⟩, ⟨_, rfl, by decide⟩⟩

/-- Refused without `admit_gk_ops`, each of the four; not refused with it. -/
theorem witness_RefusalMarksTheRun :
    Steps (bareState.withFetchWord 16 0x8010) (fun t => t.refused = some ⟨0x8010#16, 0x200#16⟩) ∧
    Steps (bareState.withFetchWord 16 0xB300) (fun t => t.refused = some ⟨0xB300#16, 0x200#16⟩) ∧
    Steps (bareState.withFetchWord 16 0xC0FF) (fun t => t.refused = some ⟨0xC0FF#16, 0x200#16⟩) ∧
    Steps (bareState.withFetchWord 16 0xF029) (fun t => t.refused = some ⟨0xF029#16, 0x200#16⟩) ∧
    Steps (placed 0x8010) (fun t => t.refused = none) :=
  ⟨⟨_, rfl, by decide⟩, ⟨_, rfl, by decide⟩, ⟨_, rfl, by decide⟩, ⟨_, rfl, by decide⟩, ⟨_, rfl, by decide⟩⟩

/-- After a refused step no agent has a move, after a reset either (V11). -/
theorem test_refused_run_is_over : ∀ e ∈ [Transaction.step, .timerTick, .keyPress 0x0#4, .keyRelease 0xF#4],
    (nextOf (transactAll [.step, e] (bareState.withFetchWord 16 0x8150))).isSome = false ∧
    (nextOf (transactAll [.step, .reset, e] (bareState.withFetchWord 16 0x8150))).isSome = false := by decide

/-- A mark under a configuration that refuses, and no mark under one that does not. -/
theorem witness_ResetMeetsStateInv : bareState.cfg.admitGkOps = false ∧
    (State.resetWith bareState.cfg (some ⟨0x8150#16, 0x200#16⟩) 3).refused ≠ none ∧
    referenceConfig.admitGkOps = true ∧ (State.resetWith referenceConfig none 3).refused = none := by decide

/-- A state that meets the invariant and is not reset: two listed bytes, a full stack, an armed wait, a step taken. -/
theorem invWitness : { placed 0xF055 with stack := List.replicate 16 0x202#16, waitArmed := true, stepped := true }.Inv where
  mem    := by decide
  stack  := by decide
  latch  := by decide
  run    := trivial
  mark   := by decide
  launch := by decide

theorem witness_StepKeepsStateInv :
    { placed 0xF055 with stack := List.replicate 16 0x202#16, waitArmed := true, stepped := true }.Inv ∧
    Steps { placed 0xF055 with stack := List.replicate 16 0x202#16, waitArmed := true, stepped := true } (fun t => t.run = .running) :=
  ⟨invWitness, _, rfl, by decide⟩

/-- One per transaction that is no step. -/
theorem witness_HostTransactionsKeepStateInv :
    let s : State := { placed 0xF055 with stack := List.replicate 16 0x202#16, waitArmed := true, stepped := true }
    s.Inv ∧ ∀ e ∈ [Transaction.timerTick, .keyPress 0xF#4, .keyRelease 0x0#4, .reset],
      e ≠ .step ∧ (nextOf (transact e s)).isSome = true :=
  ⟨invWitness, by decide⟩

/-- ADD leaves every register but Vx and VF. -/
theorem witness_RegistersWrittenByInstruction :
    Execs (.addReg 0x0#4 0x1#4) State.reset (fun _ => True) ∧ ¬(Instr.addReg 0x0#4 0x1#4).WritesReg 0x1#4 ∧
    Execs (.ldVxMem 0xE#4) State.reset (fun _ => True) ∧ ¬(Instr.ldVxMem 0xE#4).WritesReg 0xF#4 :=
  ⟨⟨_, rfl, trivial⟩, by unfold Instr.WritesReg; decide, ⟨_, rfl, trivial⟩, by unfold Instr.WritesReg; decide⟩

theorem witness_StackOnlyByCallAndReturn :
    Execs (.call 0x300#12) State.reset (fun t => t.stack = [0x200#16]) ∧
    Execs .ret { State.reset with stack := [0x206#16] } (fun t => t.stack = []) ∧ Execs .cls State.reset (fun t => t.stack = []) :=
  ⟨⟨_, rfl, rfl⟩, ⟨_, rfl, rfl⟩, ⟨_, rfl, rfl⟩⟩

/-- The last clause: `Fx65` with `ldst_inc_i = false`. -/
theorem witness_TimersAndIndexWrittenByInstruction :
    Execs (.ldImm 0x0#4 0x01#8) State.reset (fun t => t.dt = 0#8) ∧
    Execs (.ldVxMem 0x0#4) { resetIn { referenceConfig with ldstIncI := false } with i := 0x300#16 } (fun t => t.i = 0x300#16) :=
  ⟨⟨_, rfl, rfl⟩, ⟨_, rfl, rfl⟩⟩

/-- A change by each writer: the tick, a reset, a step of each kind. -/
theorem witness_TimersAndIndexChangedOnlyBy :
    (∃ t, transact .timerTick { State.reset with dt := 0xFF#8, st := 0x01#8 } = .next t ∧ t.dt = 0xFE#8 ∧ t.st = 0x00#8) ∧
    (∃ t, transact .reset { State.reset with dt := 0xFF#8, st := 0x01#8, i := 0xFFFF#16 } = .next t ∧ t.dt = 0x00#8 ∧
      t.i = 0x0000#16) ∧
    Steps ((placed 0xF015).setV 0x0#4 0x01#8) (fun t => t.dt ≠ 0x00#8) ∧
    Steps ((placed 0xF018).setV 0x0#4 0x01#8) (fun t => t.st ≠ 0x00#8) ∧
    Steps (placed 0xF055) (fun t => t.i ≠ 0x0000#16) :=
  ⟨⟨_, rfl, rfl, rfl⟩, ⟨_, rfl, rfl, rfl⟩, ⟨_, rfl, by decide⟩, ⟨_, rfl, by decide⟩, ⟨_, rfl, by decide⟩⟩

/-- A change by each writer: a load, a reset, a step of `Fx33` and one of `Fx55`. -/
theorem witness_MemoryChangedOnlyBy :
    (∃ t, transact (.loadProgram [0x12#8]) State.reset = .next t ∧ t.readByte 0x200 ≠ State.reset.readByte 0x200) ∧
    (∃ t, transact .reset (placed 0x1200) = .next t ∧ t.readByte 0x200 ≠ (placed 0x1200).readByte 0x200) ∧
    Steps { (placed 0xF033).setV 0x0#4 0x07#8 with i := 0xFFD#16 } (fun t => t.readByte 0xFFF ≠ 0x00#8) ∧
    Steps { (placed 0xF055).setV 0x0#4 0x07#8 with i := 0xFFF#16 } (fun t => t.readByte 0xFFF ≠ 0x00#8) :=
  ⟨⟨_, rfl, by decide⟩, ⟨_, rfl, by decide⟩, ⟨_, rfl, by decide⟩, ⟨_, rfl, by decide⟩⟩

/-- A step of CLS that changes a pixel. -/
theorem witness_FramebufferWrittenOnlyBy : ∃ t, transact .step { placed 0x00E0 with fb := setPixel clearFb 63 31 true } = .next t ∧
    getPixel t.fb 63 31 ≠ getPixel (setPixel clearFb 63 31 true) 63 31 :=
  ⟨_, rfl, by decide⟩

/-- The last byte of memory, by each of the two instructions. -/
theorem witness_MemoryWrittenOnlyBy :
    Execs (.ldBVx 0x0#4) { withV [(0x0#4, 0x07#8)] with i := 0xFFD#16 } (fun t => t.readByte 0xFFF ≠ State.reset.readByte 0xFFF) ∧
    Execs (.ldMemVx 0x0#4) { withV [(0x0#4, 0x07#8)] with i := 0xFFF#16 }
      (fun t => t.readByte 0xFFF ≠ State.reset.readByte 0xFFF) :=
  ⟨⟨_, rfl, by decide⟩, ⟨_, rfl, by decide⟩⟩

theorem witness_KeysAndLatchUnderInstructions :
    Execs (.ldVxK 0x0#4) State.reset (fun t => t.waitArmed = true) ∧ Execs .cls State.reset (fun t => t.waitArmed = false) :=
  ⟨⟨_, rfl, rfl⟩, ⟨_, rfl, rfl⟩⟩

theorem witness_ConfigurationNeverChanges : ∃ t, transact .reset bareState = .next t ∧ t.cfg.admitGkOps = false := ⟨_, rfl, rfl⟩

theorem witness_SoundTimerIsNeverRead : Steps (placed 0xF018) (fun t => t.run = .running) := ⟨_, rfl, rfl⟩

theorem witness_DiagnosticsNeverAffectExecution : Steps (placed 0x0001) (fun t => t.diagOut = [⟨0x0001#16, 0x200#16⟩]) :=
  ⟨_, rfl, by decide⟩

/-- The one target at which the next fetch faults. -/
theorem witness_JumpSetsPc : State.reset.Safe ∧ (0xFFF#12 : Addr12).toNat = 0xFFF := ⟨⟨rfl, rfl⟩, rfl⟩

/-- Full and bounded; one below full; full and unbounded. -/
theorem witness_CallPushesOrOverflows :
    Faults (.call 0x400#12) { State.reset with stack := List.replicate 16 0x202#16 } (.stackOverflow 16 0x200#16) ∧
    Execs (.call 0x400#12) { State.reset with stack := List.replicate 15 0x202#16 } (fun t => t.sp = 16) ∧
    Execs (.call 0x400#12) { resetIn { referenceConfig with stackOverflow := .unbounded } with
      stack := List.replicate 16 0x202#16 } (fun t => t.sp = 17) :=
  ⟨rfl, ⟨_, rfl, rfl⟩, ⟨_, rfl, rfl⟩⟩

theorem witness_ReturnPops :
    ({ State.reset with stack := [0x206#16, 0x30A#16] } : State).stack = [0x206#16] ++ [0x30A#16] ∧
    (State.reset.stack = [] ∧ State.reset.cfg.emptyReturn = .pcZero) ∧
    ((resetIn { referenceConfig with emptyReturn := .fault }).stack = [] ∧
      (resetIn { referenceConfig with emptyReturn := .fault }).cfg.emptyReturn = .fault) := by decide

theorem witness_CallThenReturn : ∃ t, exec (.call 0x400#12) State.reset = .next t ∧ t.run = State.reset.run ∧
    State.reset.run = .running ∧ ({ State.reset with stack := [0x200#16], i := 0x123#16 } : State).stack = t.stack :=
  ⟨_, rfl, rfl, rfl, rfl⟩

/-- Both sides of each skip's condition. -/
theorem witness_SkipOnImmediate_SkipOnRegisters :
    Execs (.seImm 0x3#4 0x2A#8) (withV [(0x3#4, 0x2A#8)]) (fun t => t.pc = 0x202#16) ∧
    Execs (.sneImm 0x3#4 0x2A#8) (withV [(0x3#4, 0x2A#8)]) (fun t => t.pc = 0x200#16) ∧
    Execs (.seReg 0x1#4 0x2#4) (withV [(0x1#4, 1#8)]) (fun t => t.pc = 0x200#16) ∧
    Execs (.sneReg 0x1#4 0x2#4) (withV [(0x1#4, 1#8)]) (fun t => t.pc = 0x202#16) :=
  ⟨⟨_, rfl, by decide⟩, ⟨_, rfl, by decide⟩, ⟨_, rfl, by decide⟩, ⟨_, rfl, by decide⟩⟩

/-- Both configurations of the four refusable instructions (JumpPlusV0, CopyRegister, RandomIsMaskedDraw, FontAddressOfDigit). -/
theorem witness_admitted_and_refused : State.reset.cfg.admitGkOps = true ∧ bareState.cfg.admitGkOps = false ∧
    Execs (.jpV0 0xFFF#12) State.reset (fun t => t.pc = 0xFFF#16) ∧ Execs (.jpV0 0xFFF#12) bareState (fun t => t.pc = 0x1FE#16) ∧
    Execs (.ldReg 0x0#4 0x1#4) bareState (fun t => t.refused = some ⟨0x8010#16, 0x1FE#16⟩) ∧
    Execs (.rnd 0x0#4 0x00#8) State.reset (fun t => t.draws = 1) ∧ Execs (.rnd 0x0#4 0x00#8) bareState (fun t => t.draws = 0) ∧
    Execs (.ldFVx 0x0#4) (withV [(0x0#4, 0xFF#8)]) (fun t => t.i = 0x09B#16) ∧
    Execs (.ldFVx 0x0#4) bareState (fun t => t.i = 0x000#16) :=
  ⟨rfl, rfl, ⟨_, rfl, by decide⟩, ⟨_, rfl, by decide⟩, ⟨_, rfl, by decide⟩, ⟨_, rfl, rfl⟩, ⟨_, rfl, rfl⟩, ⟨_, rfl, by decide⟩,
    ⟨_, rfl, by decide⟩⟩

theorem witness_SysIsDiagnosedNoOp : (0x000#12 : Addr12).toNat ≠ 0x0E0 ∧ (0x000#12 : Addr12).toNat ≠ 0x0EE ∧
    (0x0E1#12 : Addr12).toNat ≠ 0x0E0 ∧ (0x0E1#12 : Addr12).toNat ≠ 0x0EE := by decide

/-- Each operation, each `logic_vf`, and x = F. -/
theorem witness_LogicOperations :
    (∀ k, (0xFF#8).getLsbD k =
      (((withV [(0x0#4, 0x0F#8), (0x1#4, 0xF0#8)]).getV 0x0#4).getLsbD k ||
        ((withV [(0x0#4, 0x0F#8), (0x1#4, 0xF0#8)]).getV 0x1#4).getLsbD k)) ∧
    (∀ k, (0x0C#8).getLsbD k =
      (((withV [(0x0#4, 0x3C#8), (0x1#4, 0x0F#8)]).getV 0x0#4).getLsbD k &&
        ((withV [(0x0#4, 0x3C#8), (0x1#4, 0x0F#8)]).getV 0x1#4).getLsbD k)) ∧
    (∀ k, (0x33#8).getLsbD k =
      (((withV [(vf, 0x3C#8), (0x1#4, 0x0F#8)]).getV vf).getLsbD k !=
        ((withV [(vf, 0x3C#8), (0x1#4, 0x0F#8)]).getV 0x1#4).getLsbD k)) ∧
    State.reset.cfg.logicVf = .zero ∧ (resetIn { referenceConfig with logicVf := .preserve }).cfg.logicVf = .preserve ∧
    (resetIn { referenceConfig with logicVf := .any }).cfg.logicVf = .any := by
  refine ⟨fun k => ?_, fun k => ?_, fun k => ?_, rfl, rfl, rfl⟩
  · rw [← BitVec.getLsbD_or]; rfl
  · rw [← BitVec.getLsbD_and]; rfl
  · change _ = Bool.xor _ _; rw [← BitVec.getLsbD_xor]; rfl

/-- x = F and x ≠ F, a carry and none, a borrow and none. -/
theorem witness_flag_operations :
    Execs (.addReg 0xF#4 0x1#4) (withV [(vf, 0xFF#8), (0x1#4, 0x01#8)]) (fun t => t.getV vf = 1#8) ∧
    Execs (.addReg 0x0#4 0x1#4) (withV [(0x0#4, 0xFE#8), (0x1#4, 0x01#8)]) (fun t => t.getV 0x0#4 = 0xFF#8 ∧ t.getV vf = 0#8) ∧
    Execs (.subReg 0x0#4 0x1#4) (withV [(0x1#4, 0x01#8)]) (fun t => t.getV 0x0#4 = 0xFF#8 ∧ t.getV vf = 0#8) ∧
    Execs (.subn 0xF#4 0xF#4) (withV [(vf, 0x03#8)]) (fun t => t.getV vf = 1#8) ∧
    Execs (.shr 0x0#4 0x1#4) (withV [(0x1#4, 0xFF#8)]) (fun t => t.getV 0x0#4 = 0x7F#8 ∧ t.getV vf = 1#8) ∧
    Execs (.shl 0x0#4 0x1#4) (withV [(0x1#4, 0xFF#8)]) (fun t => t.getV 0x0#4 = 0xFE#8 ∧ t.getV vf = 1#8) :=
  ⟨⟨_, rfl, by decide⟩, ⟨_, rfl, by decide⟩, ⟨_, rfl, by decide⟩, ⟨_, rfl, by decide⟩, ⟨_, rfl, by decide⟩, ⟨_, rfl, by decide⟩⟩

/-- The last block that fits, for the digits, the dump, the load and the draw; the first that does not is in
witness_FatalConditionsByInstruction. -/
theorem witness_memory_blocks :
    Execs (.ldBVx 0x0#4) { withV [(0x0#4, 0xFF#8)] with i := 0xFFD#16 } (fun t => t.readByte 0xFFF = 5#8) ∧
    Execs (.ldMemVx 0xF#4) { withV [(vf, 0x07#8)] with i := 0xFF0#16 } (fun t => t.readByte 0xFFF = 7#8 ∧ t.i = 0x1000#16) ∧
    Execs (.ldVxMem 0x0#4) { State.reset.writeByte 0xFFF 9#8 with i := 0xFFF#16 } (fun t => t.getV 0x0#4 = 9#8) ∧
    Execs (.drw 0x0#4 0x0#4 0x1#4) { State.reset.writeByte 0xFFF 0x80#8 with i := 0xFFF#16 } (fun t => getPixel t.fb 0 0 = true) :=
  ⟨⟨_, rfl, by decide⟩, ⟨_, rfl, by decide⟩, ⟨_, rfl, by decide⟩, ⟨_, rfl, by decide⟩⟩

/-- An exact fit, an empty block at the end, one byte too many. -/
theorem witness_BlockWriteThenRead : 4094 + [1#8, 2#8].length ≤ 4096 ∧ 4096 + ([] : List Byte).length ≤ 4096 ∧
    4096 < 4095 + [1#8, 2#8].length := by decide

/-- V0V1 = 0x1300 is stored at 0x400 and is JP 0x300. -/
theorem witness_StoreIsFetchedByNextStep :
    let s : State := { withV [(0x0#4, 0x13#8), (0x1#4, 0x00#8)] with i := 0x400#16 }
    1 ≤ (0x1#4 : Reg).toNat ∧ s.i.toNat + ((0x1#4 : Reg).toNat + 1) ≤ 4096 ∧ s.Safe ∧
    Execs (.ldMemVx 0x1#4) s (fun t => t.readByte 0x400 = 0x13#8) ∧
    Encoded ((s.getV 0x0#4).toNat * 256 + (s.getV 0x1#4).toNat) (.jp 0x300#12) :=
  ⟨by decide, by decide, ⟨rfl, rfl⟩, ⟨_, rfl, by decide⟩, ⟨by decide, by decide⟩⟩

/-- Covered pixels set and none set: the two clauses of VF. -/
theorem witness_DrawInvertsCoveredPixels :
    (∃ cx cy, Covers { State.reset.writeByte 0x300 0x80#8 with i := 0x300#16 } 63 31 1 cx cy ∧
      getPixel (setPixel clearFb 63 31 true) cx cy = true) ∧
    (∀ cx cy, Covers State.reset 0 0 0 cx cy → getPixel clearFb cx cy = false) :=
  ⟨⟨63, 31, ⟨0, 0, by decide, by decide, by decide, by decide, by decide⟩, by decide⟩,
    fun _ _ ⟨_, _, h, _⟩ => absurd h (Nat.not_lt_zero _)⟩

theorem witness_DrawTwiceRestores : (0x0#4 : Reg) ≠ vf ∧ (0xE#4 : Reg) ≠ vf ∧
    Execs (.drw 0x0#4 0xE#4 0x1#4) { State.reset.writeByte 0xFFF 0x80#8 with i := 0xFFF#16 } (fun t => getPixel t.fb 0 0 = true) :=
  ⟨by decide, by decide, _, rfl, by decide⟩

/-- The last key and the first value that is none. -/
theorem witness_KeySkips : (0xF#4 : Key).toNat = ((withV [(0x4#4, 0x0F#8)]).getV 0x4#4).toNat ∧
    0x0F < ((withV [(0x4#4, 0x10#8)]).getV 0x4#4).toNat := by decide

theorem witness_KeyWait : ({ State.reset with waitedKey := some 0xF#4 } : State).waitedKey = some 0xF#4 ∧
    State.reset.waitedKey = none := by decide

theorem witness_KeyWaitResolvedByRelease : (placed 0xF30A).Safe ∧ (placed 0xF30A).pc.toNat + 2 ≤ 4096 ∧
    decode (wordAt (placed 0xF30A) (placed 0xF30A).pc.toNat) = .instr (.ldVxK 0x3#4) ∧ (placed 0xF30A).waitedKey = none :=
  ⟨⟨rfl, rfl⟩, by decide, by decide, rfl⟩

/-- A release that resolves, and one of a key that is up. -/
theorem witness_KeyEvents :
    let s : State := { State.reset with waitArmed := true }.setKey 0x3#4 true
    s.Safe ∧ s.waitArmed = true ∧ s.getKey 0x3#4 = true ∧ s.getKey 0x4#4 = false ∧ State.reset.Safe ∧
    State.reset.waitArmed = false := by unfold State.Safe; decide

/-- A timer at 0 and one at 255. -/
theorem witness_TickDecrementsBothTimers : ({ State.reset with st := 0xFF#8 } : State).Safe ∧
    (nextOf (timerTick { State.reset with st := 0xFF#8 })).map (fun t => (t.dt, t.st)) = some (0x00#8, 0xFE#8) := by
  unfold State.Safe; decide

theorem witness_ResetIsIdempotent : (∃ t u, transact .reset (placed 0xF30A) = .next t ∧ transact .reset t = .next u) ∧
    placed 0xF30A ≠ State.reset ∧ (placed 0xF30A).cfg = State.reset.cfg ∧ (placed 0xF30A).refused = State.reset.refused ∧
    (placed 0xF30A).draws = State.reset.draws :=
  ⟨⟨_, _, rfl, rfl⟩, by decide, rfl, rfl, rfl⟩

/-- The longest image that fits and the shortest that does not, before the first step; any image after it. -/
theorem witness_ProgramLoad : State.reset.stepped = false ∧ (List.replicate 3584 0#8).length ≤ 3584 ∧
    3584 < (List.replicate 3585 0#8).length ∧ ({ State.reset with stepped := true } : State).stepped = true :=
  ⟨rfl, by rw [List.length_replicate], by rw [List.length_replicate]; decide, rfl⟩

end Sys2Proof.Tests
end

section
/-! The answers of the instructions and where they leave PC (spec 30_encoding R91; 40_control_flow R121). -/

namespace Sys2Proof

/-- The instructions that put an address of their own in PC (R122, R123, R124, R129). -/
def Instr.TransfersControl (i : Instr) : Prop := (∃ nnn, (i = .jp nnn ∨ i = .call nnn ∨ i = .jpV0 nnn)) ∨ i = .ret

end Sys2Proof

namespace Sys2Proof.Machine

/-- PC in `t` stands where an instruction that starts in `s` leaves it without transferring control: on the instruction itself,
on the next word, or past that word. -/
def PcNear (s t : State) : Prop := t.pc = s.fpc ∨ t.pc = s.pc ∨ t.pc = s.pc + 2#16

/-- The answer `r` is a next state, with PC near the instruction. -/
def AnswersNear (s : State) (r : Host.Outcome State Fault Refusal) : Prop := ∃ t, r = .next t ∧ PcNear s t

section
variable {s t : State}

theorem PcNear.of_pc_eq (h : t.pc = s.pc) : PcNear s t := .inr (.inl h)

theorem PcNear.skipIf (s : State) (c : Bool) : PcNear s (s.skipIf c) := by
  cases c with
  | false => exact .inr (.inl rfl)
  | true => exact .inr (.inr rfl)

@[simp] theorem State.logicFlag_pc (s : State) : s.logicFlag.pc = s.pc := logicFlag_frame s .pc (by simp)

@[simp] theorem advanceI_pc (s : State) (x : Reg) : (advanceI s x).pc = s.pc := advanceI_frame s x .pc (by simp)

@[simp] theorem loadRegs_pc (s : State) (j : Nat) (bs : List Byte) : (loadRegs s j bs).pc = s.pc := by rw [loadRegs_eq]

@[simp] theorem State.writeBytes_pc (s : State) (a : Nat) (bs : List Byte) : (s.writeBytes a bs).pc = s.pc := by
  rw [State.writeBytes_eq]

theorem memWrite_pc {a : Nat} {bs : List Byte} (h : memWrite s a bs = .ok t) : t.pc = s.pc := by
  rcases Nat.lt_or_ge memSize (a + bs.length) with hlt | hle
  · rw [memWrite_error hlt] at h
    cases h
  · rw [memWrite_ok hle] at h
    cases h
    exact State.writeBytes_pc s a bs

theorem AnswersNear.next (h : PcNear s t) : AnswersNear s (.next t) := ⟨t, rfl, h⟩

/-- R102, R287: a refused instruction keeps PC on its own word. -/
theorem AnswersNear.admitted (w : Word) (h : PcNear s t) : AnswersNear s (Machine.admitted s w t) := by
  cases hc : s.cfg.admitGkOps with
  | true => rw [admitted_of_true hc]; exact .next h
  | false => rw [admitted_of_false hc]; exact .next (.inl rfl)

/-- R281, R282: an instruction whose checks raise keeps PC on its own word. -/
theorem AnswersNear.complete_map {α : Type} {r : Except Fatal α} {g : α → State} (h : ∀ a, r = .ok a → PcNear s (g a)) :
    AnswersNear s (complete s (r.map g)) := by
  cases r with
  | ok a => exact .next (h a rfl)
  | error f => exact .next (.inl rfl)

theorem AnswersNear.complete {r : Except Fatal State} (h : ∀ t, r = .ok t → PcNear s t) :
    AnswersNear s (Machine.complete s r) := by
  cases r with
  | ok t => exact .next (h t rfl)
  | error f => exact .next (.inl rfl)

end

/-- R97: no instruction is without an answer, and the answer is a next state. -/
theorem exec_answers_next (i : Instr) (s : State) : ∃ t, exec i s = .next t := by
  rcases exec_ends i s with ⟨f, _, h⟩ | ⟨_, _, h⟩ | ⟨t, _, h⟩
  · exact ⟨_, h⟩
  · exact ⟨_, h⟩
  · exact ⟨t, h⟩

/-- `LD Vx, K` rolls PC back while no key is there (R251). -/
theorem execLdVxK_answersNear (x : Reg) (s : State) : AnswersNear s (execLdVxK x s) := by
  simp only [execLdVxK, pollWaitedKey, armWait_waitedKey]
  cases s.waitedKey with
  | some k => exact .next (.inr (.inl rfl))
  | none => exact .next (.inl rfl)

/-- R121: an instruction that does not transfer control leaves PC near its own word. -/
theorem exec_answersNear {i : Instr} (s : State) (hi : ¬i.TransfersControl) : AnswersNear s (exec i s) := by
  cases i
  case jp nnn => exact absurd (.inl ⟨nnn, .inl rfl⟩) hi
  case call nnn => exact absurd (.inl ⟨nnn, .inr (.inl rfl)⟩) hi
  case jpV0 nnn => exact absurd (.inl ⟨nnn, .inr (.inr rfl)⟩) hi
  case ret => exact absurd (.inr rfl) hi
  case seImm | sneImm | seReg | sneReg => exact .next (.skipIf s _)
  case skp | sknp => exact .complete_map fun _ _ => .skipIf s _
  case ldVxK x => exact execLdVxK_answersNear x s
  case orReg | andReg | xorReg => exact .next (.of_pc_eq (State.logicFlag_pc _))
  case ldReg | rnd | ldFVx => exact .admitted _ (.of_pc_eq rfl)
  case drw => exact .complete_map fun _ _ => .of_pc_eq rfl
  case ldBVx => exact .complete fun _ h => .of_pc_eq (memWrite_pc h)
  case ldMemVx x => exact .complete_map fun t h => .of_pc_eq ((advanceI_pc t x).trans (memWrite_pc h))
  case ldVxMem x => exact .complete_map fun bs _ => .of_pc_eq ((advanceI_pc _ x).trans (loadRegs_pc s 0 bs))
  case sys | cls | ldImm | addImm | addReg | subReg | shr | subn | shl | ldI | ldVxDt | ldDtVx | ldStVx | addIVx =>
    exact .next (.of_pc_eq rfl)

end Sys2Proof.Machine
end

section
open Sys2Proof Sys2Proof.Machine

/-- Settles O11: an instruction that transfers control answers a next state, and any other answers one with PC near its word. -/
theorem execAlwaysAnswersNext : Obligations.ExecAlwaysAnswersNext := by
  unfold Obligations.ExecAlwaysAnswersNext
  intro i s
  by_cases hi : i.TransfersControl
  · obtain ⟨t, ht⟩ := exec_answers_next i s
    exact ⟨t, ht, .inr (.inr (.inr hi))⟩
  · obtain ⟨t, ht, hself | hnext | hskip⟩ := exec_answersNear s hi
    · exact ⟨t, ht, .inl hself⟩
    · exact ⟨t, ht, .inr (.inl hnext)⟩
    · exact ⟨t, ht, .inr (.inr (.inl hskip))⟩

/-- Settles O4: the decoder run on each of the nine words. -/
theorem sampleWordsDecode : Obligations.SampleWordsDecode := by
  unfold Obligations.SampleWordsDecode
  decide

end

section
/-! Control flow (spec 40_control_flow R122, R125, R126): the words of formats FA and FXNN, the update of PC by a
jump or a skip, and the step whose fetch is past memory. -/

namespace Sys2Proof.Machine

/-- A number is a word of `i` when the word it is the number of decodes to `i`. -/
theorem Encoded.of_decode {n : Nat} {w : Word} {i : Instr} (hn : w.toNat = n) (hd : decode w = .instr i) : Encoded n i := by
  subst hn
  exact ⟨w.isLt, by rwa [BitVec.ofNat_toNat, BitVec.setWidth_eq]⟩

theorem Encoded.of_formatFA {op : Nib} {nnn : Addr12} {i : Instr} (hd : decode (formatFA op nnn) = .instr i) :
    Encoded (op.toNat * 4096 + nnn.toNat) i :=
  .of_decode (formatFA_toNat op nnn) hd

theorem Encoded.of_formatFXNN {op : Nib} {x : Reg} {nn : Byte} {i : Instr} (hd : decode (formatFXNN op x nn) = .instr i) :
    Encoded (op.toNat * 4096 + 256 * x.toNat + nn.toNat) i :=
  .of_decode (by rw [formatFXNN_toNat, Nat.mul_comm 256]) hd

theorem decode_formatFA_jp (nnn : Addr12) : decode (formatFA 0x1#4 nnn) = .instr (.jp nnn) := by simp [decode]

theorem decode_formatFXNN_seImm (x : Reg) (nn : Byte) :
    decode (formatFXNN 0x3#4 x nn) = .instr (.seImm x nn) := by simp [decode]

theorem decode_formatFXNN_sneImm (x : Reg) (nn : Byte) :
    decode (formatFXNN 0x4#4 x nn) = .instr (.sneImm x nn) := by simp [decode]

@[simp] theorem absolute_toNat (nnn : Addr12) : (absolute nnn).toNat = nnn.toNat := by
  rw [absolute, BitVec.toNat_setWidth_of_le (by decide)]

/-- The frame of a primitive update, in the form in which the statements list the parts. -/
theorem UnchangedBut.among_singleton {s t : State} {q : Part} (h : UnchangedBut (fun p => p = q) s t) :
    UnchangedBut (Part.among [q]) s t :=
  h.mono fun _ hp => List.mem_singleton.mpr hp

theorem State.skipIf_pc (s : State) (c : Bool) : (s.skipIf c).pc = if c = true then s.pc + 2#16 else s.pc := by
  cases c <;> rfl

/-- R90: from a running block whose PC leaves no room for a word, the step takes the fetch's fault. -/
theorem step_of_fetch_past_memory {s : State} (hs : s.Safe) (hpc : memSize < s.pc.toNat + 2) :
    step s = .next (s.markStepped.raiseAt s.pc (.memOutOfRange s.pc.toNat 2)) := by
  rw [step, whenEnabled_safe hs, cycle, fetchBytes_error hpc]

theorem State.Safe.jumpTo {s : State} (hs : s.Safe) (w : Word) : (s.jumpTo w).Safe := hs

end Sys2Proof.Machine
end

section
open Sys2Proof Sys2Proof.Machine

/-- Settles O24: the jump is an update of PC alone, and 0xFFF + 2 is past memory. -/
theorem jumpSetsPc : Obligations.JumpSetsPc := by
  unfold Obligations.JumpSetsPc
  intro nnn s
  have henc : Encoded (0x1000 + nnn.toNat) (.jp nnn) := .of_formatFA (decode_formatFA_jp nnn)
  refine ⟨henc, s.jumpTo (absolute nnn), rfl, absolute_toNat nnn, (jumpTo_frame s _).among_singleton, fun hs hn => ?_⟩
  have hpc : (s.jumpTo (absolute nnn)).pc.toNat = 0xFFF := (absolute_toNat nnn).trans hn
  have hstep := step_of_fetch_past_memory (hs.jumpTo (absolute nnn)) (by rw [hpc]; decide)
  rw [hpc] at hstep
  exact ⟨_, _, hstep, rfl⟩

/-- Settles O28: each skip is `skipIf` on its own condition. -/
theorem skipOnImmediate : Obligations.SkipOnImmediate := by
  unfold Obligations.SkipOnImmediate
  intro x nn s
  refine ⟨.of_formatFXNN (decode_formatFXNN_seImm x nn), .of_formatFXNN (decode_formatFXNN_sneImm x nn),
    ⟨_, rfl, ?_, (skipIf_frame s _).among_singleton⟩, ⟨_, rfl, ?_, (skipIf_frame s _).among_singleton⟩⟩
  · simp only [State.skipIf_pc, beq_iff_eq]
  · simp only [State.skipIf_pc, bne_iff_ne, ne_eq, ite_not]

end

section
/-! Register loads and shifts (spec 41_alu R152, R153, R160, R162): the words of format FXYN, and a flag that is one bit of a byte. -/

namespace Sys2Proof.Machine

theorem Encoded.of_formatFXYN {op : Nib} {x y : Reg} {n : Nib} {i : Instr} (hd : decode (formatFXYN op x y n) = .instr i) :
    Encoded (op.toNat * 4096 + n.toNat + 256 * x.toNat + 16 * y.toNat) i :=
  .of_decode (by rw [formatFXYN_toNat]; omega) hd

theorem decode_formatFXNN_ldImm (x : Reg) (nn : Byte) :
    decode (formatFXNN 0x6#4 x nn) = .instr (.ldImm x nn) := by simp [decode]

theorem decode_formatFXNN_addImm (x : Reg) (nn : Byte) :
    decode (formatFXNN 0x7#4 x nn) = .instr (.addImm x nn) := by simp [decode]

theorem decode_formatFXYN_shr (x y : Reg) :
    decode (formatFXYN 0x8#4 x y 0x6#4) = .instr (.shr x y) := by simp [decode, decodeFamily8]

theorem decode_formatFXYN_shl (x y : Reg) :
    decode (formatFXYN 0x8#4 x y 0xE#4) = .instr (.shl x y) := by simp [decode, decodeFamily8]

/-- The frame of an update of two parts, in the form in which the statements list the parts. -/
theorem UnchangedBut.among_pair {s t : State} {q r : Part} (h : UnchangedBut (fun p => p = q ∨ p = r) s t) :
    UnchangedBut (Part.among [q, r]) s t :=
  h.mono fun _ hp => by simpa [Part.among] using hp

theorem flagByte_getLsbD_toNat (b : Byte) (k : Nat) : (flagByte (b.getLsbD k)).toNat = b.toNat / 2 ^ k % 2 := by
  rw [← Nat.toNat_testBit, flagByte_toNat, BitVec.testBit_toNat]
  cases b.getLsbD k <;> rfl

theorem flagByte_shiftedOutRight_toNat (b : Byte) : (flagByte (shiftedOutRight b)).toNat = b.toNat % 2 := by
  rw [shiftedOutRight, flagByte_getLsbD_toNat, pow_zero, Nat.div_one]

/-- Above bit 7 a byte has no further bit, so its quotient by 128 is the bit itself. -/
theorem flagByte_shiftedOutLeft_toNat (b : Byte) : (flagByte (shiftedOutLeft b)).toNat = b.toNat / 128 := by
  have := b.isLt
  rw [shiftedOutLeft, flagByte_getLsbD_toNat]
  omega

end Sys2Proof.Machine
end

section
open Sys2Proof Sys2Proof.Machine

/-- Settles O37: each shift writes its result to Vx and then its flag to VF; the flag is bit 0 or bit 7 of Vy. -/
theorem shiftsReadVy : Obligations.ShiftsReadVy := by
  unfold Obligations.ShiftsReadVy
  intro x y s
  have hframe (r : Byte) (c : Bool) : UnchangedBut (Part.among [.v x, .v vf]) s (s.setResultFlag x r c) :=
    (setResultFlag_frame s x r c).among_pair
  refine ⟨.of_formatFXYN (decode_formatFXYN_shr x y), .of_formatFXYN (decode_formatFXYN_shl x y),
    ⟨_, rfl, fun hx => ?_, ?_, hframe _ _⟩, ⟨_, rfl, fun hx => ?_, ?_, hframe _ _⟩⟩
  · rw [State.getV_setResultFlag_dest _ _ _ hx, BitVec.toNat_ushiftRight, Nat.shiftRight_one]
  · rw [State.getV_setResultFlag_vf, flagByte_shiftedOutRight_toNat]
  · rw [State.getV_setResultFlag_dest _ _ _ hx, BitVec.toNat_shiftLeft, Nat.shiftLeft_eq, pow_one, Nat.mul_comm]
  · rw [State.getV_setResultFlag_vf, flagByte_shiftedOutLeft_toNat]

/-- Settles O32: each is an update of Vx alone, so VF changes only as the destination. -/
theorem immediateLoadAndAdd : Obligations.ImmediateLoadAndAdd := by
  unfold Obligations.ImmediateLoadAndAdd
  intro x nn s
  refine ⟨.of_formatFXNN (decode_formatFXNN_ldImm x nn), .of_formatFXNN (decode_formatFXNN_addImm x nn),
    ⟨_, rfl, s.getV_setV_same x nn, (setV_frame s x nn).among_singleton⟩, ⟨_, rfl, ?_, (setV_frame s x _).among_singleton⟩⟩
  rw [State.getV_setV_same, BitVec.toNat_ofNat]

end

section
/-! The index register (spec 42_index_memory R180). -/

namespace Sys2Proof.Machine

theorem decode_formatFA_ldI (nnn : Addr12) : decode (formatFA 0xA#4 nnn) = .instr (.ldI nnn) := by simp [decode]

end Sys2Proof.Machine
end

section
open Sys2Proof Sys2Proof.Machine

/-- Settles O39: the load is an update of I alone, by the zero-extended address. -/
theorem indexLoad : Obligations.IndexLoad := by
  unfold Obligations.IndexLoad
  intro nnn s
  have henc : Encoded (0xA000 + nnn.toNat) (.ldI nnn) := .of_formatFA (decode_formatFA_ldI nnn)
  exact ⟨henc, s.setI (absolute nnn), rfl, absolute_toNat nnn, (setI_frame s _).among_singleton⟩

end

section
/-! Clearing the screen (spec 43_display R212). -/

namespace Sys2Proof.Machine

theorem encoded_cls : Encoded 0x00E0 .cls := .of_decode (w := 0x00E0#16) rfl (by decide)

/-- R212: the body of `CLS` replaces the framebuffer by the clear one. -/
theorem exec_cls (s : State) : exec .cls s = .next { s with fb := clearFb } := rfl

theorem withFb_frame (s : State) (fb : FrameBuffer) : UnchangedBut Part.isPixel s { s with fb := fb } := by
  intro p hp
  cases p with
  | pixel cx cy => exact absurd ⟨cx, cy, rfl⟩ hp
  | _ => rfl

end Sys2Proof.Machine
end

section
open Sys2Proof Sys2Proof.Machine

/-- Settles O47: the clear screen is an update of the framebuffer alone, by the one whose every pixel reads 0. -/
theorem clearScreen : Obligations.ClearScreen := by
  unfold Obligations.ClearScreen
  exact ⟨encoded_cls, fun s => ⟨_, exec_cls s, getPixel_clearFb, withFb_frame s clearFb⟩⟩

end

section
/-! Timer transfers (spec 44_input_timers R252, R253, R254): the words of format FX, and the update of one timer. -/

namespace Sys2Proof.Machine

theorem Encoded.of_formatFX {op : Nib} {x : Reg} {sel : Byte} {i : Instr} (hd : decode (formatFX op x sel) = .instr i) :
    Encoded (op.toNat * 4096 + sel.toNat + 256 * x.toNat) i :=
  .of_decode (by rw [formatFX_eq, formatFXNN_toNat]; omega) hd

theorem decode_formatFX_ldVxDt (x : Reg) :
    decode (formatFX 0xF#4 x 0x07#8) = .instr (.ldVxDt x) := by simp [formatFX_eq, decode, decodeFamilyF]

theorem decode_formatFX_ldDtVx (x : Reg) :
    decode (formatFX 0xF#4 x 0x15#8) = .instr (.ldDtVx x) := by simp [formatFX_eq, decode, decodeFamilyF]

theorem decode_formatFX_ldStVx (x : Reg) :
    decode (formatFX 0xF#4 x 0x18#8) = .instr (.ldStVx x) := by simp [formatFX_eq, decode, decodeFamilyF]

/-- R252: the body of `LD Vx, DT` is an update of Vx. -/
theorem exec_ldVxDt (x : Reg) (s : State) : exec (.ldVxDt x) s = .next (s.setV x s.dt) := rfl

/-- R253: the body of `LD DT, Vx` is an update of DT. -/
theorem exec_ldDtVx (x : Reg) (s : State) : exec (.ldDtVx x) s = .next { s with dt := s.getV x } := rfl

/-- R254: the body of `LD ST, Vx` is an update of ST. -/
theorem exec_ldStVx (x : Reg) (s : State) : exec (.ldStVx x) s = .next { s with st := s.getV x } := rfl

theorem withDt_frame (s : State) (b : Byte) : UnchangedBut (fun p => p = .dt) s { s with dt := b } := by
  intro p hp
  cases p with
  | dt => exact absurd rfl hp
  | _ => rfl

theorem withSt_frame (s : State) (b : Byte) : UnchangedBut (fun p => p = .st) s { s with st := b } := by
  intro p hp
  cases p with
  | st => exact absurd rfl hp
  | _ => rfl

end Sys2Proof.Machine
end

section
open Sys2Proof Sys2Proof.Machine

/-- Settles O53: each transfer is an update of its destination alone, by the byte its source holds. -/
theorem timerTransfers : Obligations.TimerTransfers := by
  unfold Obligations.TimerTransfers
  intro x s
  exact ⟨.of_formatFX (decode_formatFX_ldVxDt x), .of_formatFX (decode_formatFX_ldDtVx x),
    .of_formatFX (decode_formatFX_ldStVx x),
    ⟨_, exec_ldVxDt x s, s.getV_setV_same x s.dt, (setV_frame s x s.dt).among_singleton⟩,
    ⟨_, exec_ldDtVx x s, rfl, (withDt_frame s (s.getV x)).among_singleton⟩,
    ⟨_, exec_ldStVx x s, rfl, (withSt_frame s (s.getV x)).among_singleton⟩⟩

end

section
/-! The diagnosed no-op (spec 30_encoding R90, R96; 40_control_flow R130; 60_exceptions R284, R285): the step on a word
that fits in memory, and the word that `SYS` is decoded from. -/

namespace Sys2Proof

/-- Every arm of the decoder outside family 0 answers another instruction or an unmatched word, so `SYS` is of family 0. -/
theorem fieldOp_of_decode_sys {w : Word} {nnn : Addr12} (h : decode w = .instr (.sys nnn)) : fieldOp w = 0x0#4 := by
  by_contra hop
  simp only [decode, decodeFamily8, decodeFamilyE, decodeFamilyF, hop, ite_eq_iff, Decoded.instr.injEq, reduceCtorEq,
    false_and, and_false, or_self] at h

/-- R130: the word recorded for `SYS nnn` is the word that was decoded. -/
theorem encode_of_decode_sys {w : Word} {nnn : Addr12} (h : decode w = .instr (.sys nnn)) : encode (.sys nnn) = w := by
  have hop := fieldOp_of_decode_sys h
  have hdec : decode w = decodeFamily0 w := if_pos hop
  obtain ⟨i, hi, henc, -⟩ := decodeFamily0_cases w hop
  have hsys : i = .sys nnn := Decoded.instr.inj (hi.symm.trans (hdec.symm.trans h))
  rwa [← hsys]

end Sys2Proof

namespace Sys2Proof.Machine

/-- The fetched word is the one whose number its two bytes make, big-endian (R66). -/
theorem wordAt_eq_of_toNat {s : State} {a : Nat} {w : Word}
    (hw : w.toNat = (s.readByte a).toNat * 256 + (s.readByte (a + 1)).toNat) : wordAt s a = w :=
  BitVec.eq_of_toNat_eq ((wordOfBytes_toNat _ _).trans hw.symm)

/-- R90, R96: from a running block, the step on an unmatched word adds its record to the entered state. -/
theorem step_of_unmatched {s : State} {u : Word} (hs : s.Safe) (hpc : s.pc.toNat + 2 ≤ memSize)
    (hd : decode (wordAt s s.pc.toNat) = .unmatched u) : step s = .next (s.entry.diag u) := by
  rw [step, whenEnabled_safe hs]
  obtain ⟨hpast, -⟩ | ⟨v, -, hv, hstep⟩ | ⟨i, -, hi, -⟩ := cycle_cases exec s
  · omega
  · obtain rfl : v = u := Decoded.unmatched.inj (hv.symm.trans hd)
    exact hstep
  · cases hi.symm.trans hd

/-- R90: from a running block, the step on an instruction's word executes it in the entered state. -/
theorem step_of_instr {s : State} {i : Instr} (hs : s.Safe) (hpc : s.pc.toNat + 2 ≤ memSize)
    (hd : decode (wordAt s s.pc.toNat) = .instr i) : step s = exec i s.entry := by
  rw [step, whenEnabled_safe hs]
  obtain ⟨hpast, -⟩ | ⟨v, -, hv, -⟩ | ⟨j, -, hj, hstep⟩ := cycle_cases exec s
  · omega
  · cases hv.symm.trans hd
  · obtain rfl : j = i := Decoded.instr.inj (hj.symm.trans hd)
    exact hstep

/-- R130: `SYS` leaves the record of its own word. -/
theorem exec_sys (nnn : Addr12) (s : State) : exec (.sys nnn) s = .next (s.diag (encode (.sys nnn))) := rfl

/-- R130, R284: on an unmatched word and on `SYS` the step is the same, the entered state with the word's record. -/
theorem step_of_diagnosed {s : State} (hs : s.Safe) (hpc : s.pc.toNat + 2 ≤ memSize)
    (hd : decode (wordAt s s.pc.toNat) = .unmatched (wordAt s s.pc.toNat) ∨
      ∃ nnn, decode (wordAt s s.pc.toNat) = .instr (.sys nnn)) :
    step s = .next (s.entry.diag (wordAt s s.pc.toNat)) := by
  obtain hd | ⟨nnn, hd⟩ := hd
  · exact step_of_unmatched hs hpc hd
  · rw [step_of_instr hs hpc hd, exec_sys, encode_of_decode_sys hd]

/-- Where the word fits in memory, the advance of PC does not wrap (R91). -/
theorem State.entry_pc_toNat {s : State} (hpc : s.pc.toNat + 2 ≤ memSize) : s.entry.pc.toNat = s.pc.toNat + 2 :=
  BitVec.toNat_add_of_lt (Nat.lt_of_le_of_lt hpc (by decide))

theorem entry_diag_frame (s : State) (w : Word) :
    UnchangedBut (Part.among [.pc, .diagOut, .stepped]) s (s.entry.diag w) :=
  ((entry_frame s).mono fun p hp => by rcases hp with rfl | rfl <;> simp [Part.among]).trans
    ((diag_frame s.entry w).mono fun p hp => by simp [Part.among, hp])

end Sys2Proof.Machine
end

section
open Sys2Proof Sys2Proof.Machine

/-- Settles O6: the step answers the entered state, which is `s` with PC past the word, with the word's record appended. -/
theorem unmatchedWordIsDiagnosedNoOp : Obligations.UnmatchedWordIsDiagnosedNoOp := by
  unfold Obligations.UnmatchedWordIsDiagnosedNoOp
  intro s w hs hpc hw hd
  obtain rfl := wordAt_eq_of_toNat hw
  refine ⟨_, step_of_diagnosed hs hpc hd, hs, State.entry_pc_toNat hpc, ?_, entry_diag_frame s _⟩
  rw [State.diag_diagOut, State.entry_diagOut, State.entry_fpc]

end

section
/-! The decoder against the encoder and against its own list of unmatched words (spec 30_encoding R93, R95, R96, R98). -/

namespace Sys2Proof

section Families
variable {w : Word}

theorem decode_family0 (h : fieldOp w = 0x0#4) : decode w = decodeFamily0 w := if_pos h

theorem decode_family8 (h : fieldOp w = 0x8#4) : decode w = decodeFamily8 w := by simp [decode, h]

theorem decode_familyE (h : fieldOp w = 0xE#4) : decode w = decodeFamilyE w := by simp [decode, h]

theorem decode_familyF (h : fieldOp w = 0xF#4) : decode w = decodeFamilyF w := by simp [decode, h]

/-- R130: the two words of family 0 that are other instructions are the ones an ill-formed `SYS` would have. -/
theorem decode_encode_sys {nnn : Addr12} (h : (Instr.sys nnn).wellFormed = true) :
    decode (encode (.sys nnn)) = .instr (.sys nnn) := by
  simp only [Instr.wellFormed, Bool.and_eq_true, bne_iff_ne, ne_eq] at h
  obtain ⟨hcls, hret⟩ := h
  have hword (a : Addr12) (hw : encode (.sys nnn) = encode (.sys a)) : nnn = a := by
    have := congrArg fieldNNN hw
    rwa [encode, encode, fieldNNN_formatFA, fieldNNN_formatFA] at this
  have hop : fieldOp (encode (.sys nnn)) = 0x0#4 := fieldOp_formatFA _ _
  have hne0 : encode (.sys nnn) ≠ 0x00E0#16 := fun hw => hcls (hword 0x0E0#12 hw)
  have hneE : encode (.sys nnn) ≠ 0x00EE#16 := fun hw => hret (hword 0x0EE#12 hw)
  rw [decode_family0 hop, decodeFamily0, if_neg hne0, if_neg hneE, encode, fieldNNN_formatFA]

end Families

/-- R93, R95, R98: the decoder reads back the family, the selector and the operands that the encoder wrote. -/
theorem decode_encode {i : Instr} (h : i.wellFormed = true) : decode (encode i) = .instr i := by
  cases i
  case sys => exact decode_encode_sys h
  case cls | ret => decide
  case jp | call | ldI | jpV0 => simp [encode, decode]
  case seImm | sneImm | ldImm | addImm | rnd => simp [encode, decode]
  case seReg | sneReg | drw => simp [encode, decode]
  case ldReg | orReg | andReg | xorReg | addReg | subReg | shr | subn | shl =>
    rw [encode, decode_family8 (fieldOp_formatFXYN _ _ _ _)]
    simp [decodeFamily8]
  case skp | sknp =>
    rw [encode, formatFX_eq, decode_familyE (fieldOp_formatFXNN _ _ _)]
    simp [decodeFamilyE]
  case ldVxDt | ldVxK | ldDtVx | ldStVx | addIVx | ldFVx | ldBVx | ldMemVx | ldVxMem =>
    rw [encode, formatFX_eq, decode_familyF (fieldOp_formatFXNN _ _ _)]
    simp [decodeFamilyF]

/-- What a decoded instruction says of its word (R95, R98): its own encoding, or, in families 5 and 9, the word of the same
registers with any low nibble (decision D9). -/
def DecodedFrom (w : Word) (i : Instr) : Prop :=
  (fieldOp w ≠ 0x5#4 ∧ fieldOp w ≠ 0x9#4 ∧ encode i = w) ∨
  (fieldOp w = 0x5#4 ∧ i = .seReg (fieldX w) (fieldY w)) ∨ (fieldOp w = 0x9#4 ∧ i = .sneReg (fieldX w) (fieldY w))

/-- R96: a word that matches no row, by its family and its selector. -/
def MatchesNoRow (w : Word) : Prop :=
  (fieldOp w = 0x8#4 ∧ fieldN w ∉ [0x0#4, 0x1#4, 0x2#4, 0x3#4, 0x4#4, 0x5#4, 0x6#4, 0x7#4, 0xE#4]) ∨
  (fieldOp w = 0xE#4 ∧ fieldNN w ∉ [0x9E#8, 0xA1#8]) ∨
  (fieldOp w = 0xF#4 ∧ fieldNN w ∉ [0x07#8, 0x0A#8, 0x15#8, 0x18#8, 0x1E#8, 0x29#8, 0x33#8, 0x55#8, 0x65#8])

/-- The two kinds of answer a decoder has for a word: an instruction that comes from it, or the word itself, unmatched. -/
def Answers (w : Word) (d : Decoded) : Prop :=
  (∃ i, d = .instr i ∧ i.wellFormed = true ∧ DecodedFrom w i) ∨ (d = .unmatched w ∧ MatchesNoRow w)

section Fields
variable {w u : Word} {op : Nib} {i : Instr} {d : Decoded}

theorem fieldOp_eq_iff : fieldOp w = op ↔ w.toNat / 4096 = op.toNat := by rw [eq_iff_toNat, fieldOp_toNat]

theorem formatFA_of_fieldOp (h : fieldOp w = op) : formatFA op (fieldNNN w) = w := h ▸ formatFA_fields w

theorem formatFXNN_of_fieldOp (h : fieldOp w = op) : formatFXNN op (fieldX w) (fieldNN w) = w := h ▸ formatFXNN_fields w

theorem formatFXYN_of_fieldOp (h : fieldOp w = op) : formatFXYN op (fieldX w) (fieldY w) (fieldN w) = w :=
  h ▸ formatFXYN_fields w

/-- A family, other than 5 and 9, whose function answers an instruction that encodes to the word, or `unmatched`. -/
theorem Answers.of_cases (op : Nib) {P : Prop} (hop : (fieldOp w).toNat = op.toNat) (hP : fieldOp w = op → P → MatchesNoRow w)
    (hc : fieldOp w = op → (∃ j, d = .instr j ∧ encode j = w ∧ j.wellFormed = true) ∨ (d = .unmatched w ∧ P))
    (h5 : op ≠ 0x5#4 := by decide) (h9 : op ≠ 0x9#4 := by decide) : Answers w d := by
  obtain rfl : fieldOp w = op := BitVec.eq_of_toNat_eq hop
  obtain ⟨j, hd, henc, hwf⟩ | ⟨hu, hp⟩ := hc rfl
  · exact .inl ⟨j, hd, hwf, .inl ⟨h5, h9, henc⟩⟩
  · exact .inr ⟨hu, hP rfl hp⟩

/-- A family of one instruction, whose every field is decoded. -/
theorem Answers.of_encode (op : Nib) (hop : (fieldOp w).toNat = op.toNat) (hwf : i.wellFormed = true)
    (henc : fieldOp w = op → encode i = w) (h5 : op ≠ 0x5#4 := by decide) (h9 : op ≠ 0x9#4 := by decide) :
    Answers w (.instr i) :=
  .of_cases op hop (fun _ => False.elim) (fun h => .inl ⟨i, rfl, henc h, hwf⟩) h5 h9

/-- R95, R96: everything the decoder can answer, family by family. -/
theorem decode_answers (w : Word) : Answers w (decode w) := by
  have hlt := (fieldOp w).isLt
  rw [decode_by_family]
  split <;> rename_i hop
  case h_1 => exact .of_cases 0x0#4 hop (fun _ => False.elim) fun h => .inl (decodeFamily0_cases w h)
  case h_2 => exact .of_encode 0x1#4 hop rfl formatFA_of_fieldOp
  case h_3 => exact .of_encode 0x2#4 hop rfl formatFA_of_fieldOp
  case h_4 => exact .of_encode 0x3#4 hop rfl formatFXNN_of_fieldOp
  case h_5 => exact .of_encode 0x4#4 hop rfl formatFXNN_of_fieldOp
  case h_6 => exact .inl ⟨_, rfl, rfl, .inr (.inl ⟨BitVec.eq_of_toNat_eq hop, rfl⟩)⟩
  case h_7 => exact .of_encode 0x6#4 hop rfl formatFXNN_of_fieldOp
  case h_8 => exact .of_encode 0x7#4 hop rfl formatFXNN_of_fieldOp
  case h_9 => exact .of_cases 0x8#4 hop (fun h hsel => .inl ⟨h, hsel⟩) (decodeFamily8_cases w)
  case h_10 => exact .inl ⟨_, rfl, rfl, .inr (.inr ⟨BitVec.eq_of_toNat_eq hop, rfl⟩)⟩
  case h_11 => exact .of_encode 0xA#4 hop rfl formatFA_of_fieldOp
  case h_12 => exact .of_encode 0xB#4 hop rfl formatFA_of_fieldOp
  case h_13 => exact .of_encode 0xC#4 hop rfl formatFXNN_of_fieldOp
  case h_14 => exact .of_encode 0xD#4 hop rfl formatFXYN_of_fieldOp
  case h_15 => exact .of_cases 0xE#4 hop (fun h hsel => .inr (.inl ⟨h, hsel⟩)) (decodeFamilyE_cases w)
  case h_16 =>
    -- the fifteen other families are excluded by the arms above
    have hF : (fieldOp w).toNat = 15 := by grind
    exact .of_cases 0xF#4 hF (fun h hsel => .inr (.inr ⟨h, hsel⟩)) (decodeFamilyF_cases w)

theorem decodedFrom_of_decode (h : decode w = .instr i) : i.wellFormed = true ∧ DecodedFrom w i := by
  obtain ⟨j, hj, hwf, hfrom⟩ | ⟨hu, -⟩ := decode_answers w
  · obtain rfl : j = i := Decoded.instr.inj (hj.symm.trans h)
    exact ⟨hwf, hfrom⟩
  · cases hu.symm.trans h

theorem matchesNoRow_of_decode (h : decode w = .unmatched u) : u = w ∧ MatchesNoRow w := by
  obtain ⟨j, hj, -⟩ | ⟨hu, hno⟩ := decode_answers w
  · cases hj.symm.trans h
  · exact ⟨Decoded.unmatched.inj (h.symm.trans hu), hno⟩

theorem decode_of_matchesNoRow (h : MatchesNoRow w) : decode w = .unmatched w := by
  obtain ⟨hop, hsel⟩ | ⟨hop, hsel⟩ | ⟨hop, hsel⟩ := h <;>
    simp only [List.mem_cons, List.not_mem_nil, or_false, not_or] at hsel
  · simp [decode_family8 hop, decodeFamily8, hsel]
  · simp [decode_familyE hop, decodeFamilyE, hsel]
  · simp [decode_familyF hop, decodeFamilyF, hsel]

theorem decode_eq_unmatched_iff : decode w = .unmatched w ↔ MatchesNoRow w :=
  ⟨fun h => (matchesNoRow_of_decode h).2, decode_of_matchesNoRow⟩

/-- The selectors of family 8 that match no row, as numbers. -/
theorem selector8_iff : ∀ n : Nib, n ∉ [0x0#4, 0x1#4, 0x2#4, 0x3#4, 0x4#4, 0x5#4, 0x6#4, 0x7#4, 0xE#4] ↔
    0x8 ≤ n.toNat ∧ n.toNat ≤ 0xD ∨ n.toNat = 0xF := by decide

theorem matchesNoRow_iff : MatchesNoRow w ↔
    (w.toNat / 4096 = 0x8 ∧ (0x8 ≤ w.toNat % 16 ∧ w.toNat % 16 ≤ 0xD ∨ w.toNat % 16 = 0xF)) ∨
    (w.toNat / 4096 = 0xE ∧ w.toNat % 256 ≠ 0x9E ∧ w.toNat % 256 ≠ 0xA1) ∨
    (w.toNat / 4096 = 0xF ∧ w.toNat % 256 ∉ [0x07, 0x0A, 0x15, 0x18, 0x1E, 0x29, 0x33, 0x55, 0x65]) := by
  rw [MatchesNoRow, selector8_iff]
  simp only [eq_iff_toNat, fieldOp_toNat, fieldN_toNat, fieldNN_toNat, List.mem_cons, List.not_mem_nil, or_false, not_or,
    BitVec.toNat_ofNat, Nat.reducePow, Nat.reduceMod, ne_eq]

/-- R130: the words of `SYS`. -/
theorem decode_eq_sys_iff {nnn : Addr12} : decode w = .instr (.sys nnn) ↔
    fieldOp w = 0x0#4 ∧ w ≠ 0x00E0#16 ∧ w ≠ 0x00EE#16 ∧ nnn = fieldNNN w := by
  by_cases hop : fieldOp w = 0x0#4
  · rw [decode_family0 hop, decodeFamily0]
    split_ifs with hcls hret
    · simp [hcls]
    · simp [hret]
    · simp [hop, hcls, hret, eq_comm]
  · exact ⟨fun h => absurd (fieldOp_of_decode_sys h) hop, fun h => absurd h.1 hop⟩

/-- The word of a family 5 or 9 instruction has the low nibble 0. -/
theorem formatFXYN_zero_toNat (h : fieldOp w = op) :
    (formatFXYN op (fieldX w) (fieldY w) 0x0#4).toNat = w.toNat - w.toNat % 16 := by
  subst h
  have := w.isLt
  rw [formatFXYN_toNat, fieldOp_toNat, fieldX_toNat, fieldY_toNat, BitVec.toNat_ofNat]
  omega

/-- The encoding of a decoded instruction, as a number. -/
theorem DecodedFrom.encode_toNat (h : DecodedFrom w i) :
    (encode i).toNat =
      if w.toNat / 4096 = 0x5 ∨ w.toNat / 4096 = 0x9 then w.toNat - w.toNat % 16 else w.toNat := by
  obtain ⟨h5, h9, henc⟩ | ⟨hop, rfl⟩ | ⟨hop, rfl⟩ := h
  · have hne : ¬(w.toNat / 4096 = 0x5 ∨ w.toNat / 4096 = 0x9) :=
      fun h => h.elim (fun h => h5 (fieldOp_eq_iff.mpr h)) fun h => h9 (fieldOp_eq_iff.mpr h)
    rw [if_neg hne, henc]
  · rw [if_pos (.inl (fieldOp_eq_iff.mp hop)), encode, formatFXYN_zero_toNat hop]
  · rw [if_pos (.inr (fieldOp_eq_iff.mp hop)), encode, formatFXYN_zero_toNat hop]

end Fields

end Sys2Proof
end

section
open Sys2Proof Sys2Proof.Machine

/-- Settles O1: the decoder reads back every field that the encoder wrote. -/
theorem decodeOfEncode : Obligations.DecodeOfEncode := by
  unfold Obligations.DecodeOfEncode
  exact fun _ h => decode_encode h

/-- Settles O2: the fields of a decoded instruction are those of its word, so the formats rebuild the word from them. -/
theorem encodeOfDecode : Obligations.EncodeOfDecode := by
  unfold Obligations.EncodeOfDecode
  intro w i h
  obtain ⟨hwf, hfrom⟩ := decodedFrom_of_decode h
  exact ⟨hwf, hfrom.encode_toNat⟩

/-- Settles O3: the words of R96 by family and selector, read as numbers. -/
theorem unmatchedWords : Obligations.UnmatchedWords := by
  unfold Obligations.UnmatchedWords
  intro w
  refine ⟨fun u h => (matchesNoRow_of_decode h).1, decode_eq_unmatched_iff.trans matchesNoRow_iff, fun nnn => ?_⟩
  have hlt := w.isLt
  rw [decode_eq_sys_iff]
  simp only [eq_iff_toNat, ne_eq, fieldOp_toNat, fieldNNN_toNat, BitVec.toNat_ofNat]
  omega

end

section
/-! Which parts of a state each instruction can change, said once over all parts (spec 10_state R21-R37, 20_memory R61). -/

namespace Sys2Proof

open Machine in
/-- The parts an instruction is there to change, from the state `s` it starts in. PC is in no row, nor are `Run` and the mark,
which a fatal condition and a refusal set (R281, R287). -/
def Instr.Writes (s : State) : Instr → Part → Prop
  | .ldImm x _, p | .addImm x _, p | .ldReg x _, p | .ldVxDt x, p => p = .v x
  | .orReg x _, p | .andReg x _, p | .xorReg x _, p => p = .v x ∨ p = .v vf ∨ p = .draws
  | .addReg x _, p | .subReg x _, p | .shr x _, p | .subn x _, p | .shl x _, p => p = .v x ∨ p = .v vf
  | .rnd x _, p => p = .v x ∨ p = .draws
  | .cls, p => p.isPixel
  | .drw _ _ _, p => p = .v vf ∨ p.isPixel
  | .call _, p | .ret, p => p = .stack
  | .sys _, p => p = .diagOut
  | .ldI _, p | .addIVx _, p | .ldFVx _, p => p = .i
  | .ldVxK x, p => p = .v x ∨ p = .waitArmed ∨ p = .waitedKey
  | .ldDtVx _, p => p = .dt
  | .ldStVx _, p => p = .st
  | .ldBVx _, p => s.i.toNat + 3 ≤ memSize ∧ Part.inBlock s.i.toNat 3 p
  | .ldMemVx x, p =>
    (s.i.toNat + (x.toNat + 1) ≤ memSize ∧ Part.inBlock s.i.toNat (x.toNat + 1) p) ∨ (s.cfg.ldstIncI = true ∧ p = .i)
  | .ldVxMem x, p => (∃ r : Reg, r.toNat ≤ x.toNat ∧ p = .v r) ∨ (s.cfg.ldstIncI = true ∧ p = .i)
  | .jp _, _ | .jpV0 _, _ | .seImm _ _, _ | .sneImm _ _, _ | .seReg _ _, _ | .sneReg _ _, _ | .skp _, _ | .sknp _, _ => False

end Sys2Proof

namespace Sys2Proof.Machine

/-! ### Answers that meet a predicate -/

/-- The answer is a next state that meets `R`. -/
def EndsIn (R : State → Prop) (r : Host.Outcome State Fault Refusal) : Prop := ∃ t, r = .next t ∧ R t

section
variable {R : State → Prop} {s t : State}

theorem EndsIn.of_eq_next {r : Host.Outcome State Fault Refusal} (h : EndsIn R r) (hr : r = .next t) : R t := by
  obtain ⟨u, hu, hR⟩ := h
  obtain rfl : u = t := Host.Outcome.next.inj (hu.symm.trans hr)
  exact hR

theorem EndsIn.next (h : R t) : EndsIn R (.next t) := ⟨t, rfl, h⟩

theorem EndsIn.admitted {w : Word} (hrefuse : R (s.refuse w)) (h : R t) : EndsIn R (Machine.admitted s w t) := by
  cases hc : s.cfg.admitGkOps with
  | true => rw [admitted_of_true hc]; exact .next h
  | false => rw [admitted_of_false hc]; exact .next hrefuse

theorem EndsIn.complete_map {α : Type} {r : Except Fatal α} {g : α → State} (hraise : ∀ f, R (s.raiseAt s.fpc f))
    (h : ∀ a, r = .ok a → R (g a)) : EndsIn R (complete s (r.map g)) := by
  cases r with
  | ok a => exact .next (h a rfl)
  | error f => exact .next (hraise f)

theorem EndsIn.complete {r : Except Fatal State} (hraise : ∀ f, R (s.raiseAt s.fpc f)) (h : ∀ t, r = .ok t → R t) :
    EndsIn R (Machine.complete s r) := by
  cases r with
  | ok t => exact .next (h t rfl)
  | error f => exact .next (hraise f)

end

/-! ### The frames that the primitive updates' own lemmas do not give -/

theorem memWrite_cases {s t : State} {a : Nat} {bs : List Byte} (h : memWrite s a bs = .ok t) :
    a + bs.length ≤ memSize ∧ t = s.writeBytes a bs := by
  unfold memWrite at h
  split at h
  · next hle => exact ⟨hle, (Except.ok.inj h).symm⟩
  · cases h

/-- R186: `Fx55` and `Fx65` leave I where the configuration does not increment it. -/
theorem advanceI_frame_of_cfg (s : State) (x : Reg) :
    UnchangedBut (fun p => s.cfg.ldstIncI = true ∧ p = .i) s (advanceI s x) := by
  unfold advanceI
  split
  · next hc => exact (setI_frame s _).mono fun _ hp => ⟨hc, hp⟩
  · exact UnchangedBut.refl

theorem loadRegs_frame (s : State) (bs : List Byte) (h : bs.length ≤ 16) :
    UnchangedBut (fun p => ∃ r : Reg, r.toNat < bs.length ∧ p = .v r) s (loadRegs s 0 bs) := by
  intro p hp
  cases p with
  | v r =>
    have hr : bs.length ≤ r.toNat := Nat.le_of_not_lt fun hlt => hp ⟨r, hlt, rfl⟩
    exact loadRegs_below s 0 bs r (.inr (by omega)) (by omega)
  | _ => rw [loadRegs_eq]; rfl

/-- R185: the registers that `Fx65` loads from the bytes it read. -/
theorem loadRegs_frame_of_memRead {s : State} {a : Nat} {x : Reg} {bs : List Byte}
    (h : memRead s a (transferLen x) = .ok bs) :
    UnchangedBut (fun p => ∃ r : Reg, r.toNat ≤ x.toNat ∧ p = .v r) s (loadRegs s 0 bs) := by
  obtain ⟨-, hlen, -⟩ := memRead_cases h
  have hx := x.isLt
  rw [transferLen] at hlen
  exact (loadRegs_frame s bs (by omega)).mono fun p ⟨r, hr, hp⟩ => ⟨r, by omega, hp⟩

/-! ### The branches of the instructions that have several, as equations -/

section
variable {s : State}

/-- R123, R131: the stack is bounded and full. -/
theorem exec_call_of_full (nnn : Addr12) (h : s.cfg.stackOverflow = .fault ∧ s.sp = stackDepth) :
    exec (.call nnn) s = .next (s.raiseAt s.fpc (.stackOverflow stackDepth s.pc)) := by
  rw [exec, execCall, push, if_pos h, h.2]
  rfl

/-- R123: there is room for the return address. -/
theorem exec_call_of_room (nnn : Addr12) (h : ¬(s.cfg.stackOverflow = .fault ∧ s.sp = stackDepth)) :
    exec (.call nnn) s = .next ({ s with stack := s.stack ++ [s.pc] }.jumpTo (absolute nnn)) := by
  rw [exec, execCall, push, if_neg h]
  rfl

/-- R124: the most recent entry goes to PC. -/
theorem exec_ret_of_append {l : List Word} {a : Word} (h : s.stack = l ++ [a]) :
    exec .ret s = .next ({ s with stack := l }.jumpTo a) := by
  simp [exec, execRet, pop, h]

/-- R132: an empty stack under `pc_zero`. -/
theorem exec_ret_of_pcZero (h : s.stack = []) (hc : s.cfg.emptyReturn = .pcZero) :
    exec .ret s = .next (s.jumpTo 0x0000#16) := by
  simp [exec, execRet, pop, h, hc]

/-- R132: an empty stack under `fault`. -/
theorem exec_ret_of_underflow (h : s.stack = []) (hc : s.cfg.emptyReturn = .fault) :
    exec .ret s = .next (s.raiseAt s.fpc .stackUnderflow) := by
  simp [exec, execRet, pop, h, hc]

/-- R251, a key is there: it is taken and the wait ends. -/
theorem exec_ldVxK_of_some {k : Key} (h : s.waitedKey = some k) (x : Reg) :
    exec (.ldVxK x) s = .next { s.setV x (k.setWidth 8) with waitArmed := false, waitedKey := none } := by
  simp only [exec, execLdVxK, pollWaitedKey, armWait_waitedKey, h]
  rfl

/-- R251, no key is there: the wait is armed and PC goes back to this instruction. -/
theorem exec_ldVxK_of_none (h : s.waitedKey = none) (x : Reg) :
    exec (.ldVxK x) s = .next (armWait (s.jumpTo (s.pc - 2#16))) := by
  simp only [exec, execLdVxK, pollWaitedKey, armWait_waitedKey, h]
  rw [← h]
  rfl

end

theorem withLatch_frame (s : State) (armed : Bool) (key : Option Key) :
    UnchangedBut (fun p => p = .waitArmed ∨ p = .waitedKey) s { s with waitArmed := armed, waitedKey := key } := by
  intro p hp
  cases p with
  | waitArmed => exact absurd (.inl rfl) hp
  | waitedKey => exact absurd (.inr rfl) hp
  | _ => rfl

theorem armWait_frame (s : State) : UnchangedBut (fun p => p = .waitArmed) s (armWait s) := by
  intro p hp
  cases p with
  | waitArmed => exact absurd rfl hp
  | _ => rfl

/-- `Part.same` sees a part on its own, so an update of two parts is framed by the frames of the two updates. -/
theorem UnchangedBut.or {s t u : State} {P Q : Part → Prop} (h : UnchangedBut P s t) (k : UnchangedBut Q t u) :
    UnchangedBut (fun p => P p ∨ Q p) s u :=
  (h.mono fun _ => .inl).trans (k.mono fun _ => .inr)

/-! ### The frame of every instruction -/

/-- The parts that can differ after an instruction: those it is there to change, PC, and what a fatal condition or a refusal
sets. -/
def Touches (i : Instr) (s : State) (p : Part) : Prop := p = .pc ∨ p = .run ∨ p = .refused ∨ i.Writes s p

section
variable {i : Instr} {s t : State}

theorem refuse_touches (w : Word) : UnchangedBut (Touches i s) s (s.refuse w) :=
  (refuse_frame s w).mono fun _ hp => hp.imp id fun h => .inr (.inl h)

theorem raise_touches (f : Fatal) : UnchangedBut (Touches i s) s (s.raiseAt s.fpc f) :=
  (raiseAt_frame s _ f).mono fun _ hp => hp.imp id .inl

theorem UnchangedBut.touches (h : UnchangedBut (i.Writes s) s t) : UnchangedBut (Touches i s) s t :=
  h.mono fun _ hp => .inr (.inr (.inr hp))

theorem EndsIn.writes (h : UnchangedBut (i.Writes s) s t) : EndsIn (UnchangedBut (Touches i s) s) (.next t) :=
  .next h.touches

theorem EndsIn.writes_admitted {w : Word} (h : UnchangedBut (i.Writes s) s t) :
    EndsIn (UnchangedBut (Touches i s) s) (Machine.admitted s w t) := .admitted (refuse_touches w) h.touches

theorem EndsIn.jumps (h : UnchangedBut (fun p => p = .pc) s t) : EndsIn (UnchangedBut (Touches i s) s) (.next t) :=
  .next (h.mono fun _ => .inl)

theorem EndsIn.writes_map {α : Type} {r : Except Fatal α} {g : α → State}
    (h : ∀ a, r = .ok a → UnchangedBut (i.Writes s) s (g a)) :
    EndsIn (UnchangedBut (Touches i s) s) (Machine.complete s (r.map g)) :=
  .complete_map raise_touches fun a ha => (h a ha).touches

theorem EndsIn.jumps_map {α : Type} {r : Except Fatal α} {g : α → State}
    (h : ∀ a, r = .ok a → UnchangedBut (fun p => p = .pc) s (g a)) :
    EndsIn (UnchangedBut (Touches i s) s) (Machine.complete s (r.map g)) :=
  .complete_map raise_touches fun a ha => (h a ha).mono fun _ => .inl

end

theorem withStack_frame (s : State) (l : List Word) : UnchangedBut (fun p => p = .stack) s { s with stack := l } := by
  intro p hp
  cases p with
  | stack => exact absurd rfl hp
  | _ => rfl

theorem withDraws_frame (s : State) (n : Nat) : UnchangedBut (fun p => p = .draws) s { s with draws := n } := by
  intro p hp
  cases p with
  | draws => exact absurd rfl hp
  | _ => rfl

/-- A change of the stack and a jump. -/
theorem EndsIn.stack_jump {i : Instr} {s : State} {l : List Word} {a : Word} (hi : i.Writes s .stack) :
    EndsIn (UnchangedBut (Touches i s) s) (.next ({ s with stack := l }.jumpTo a)) := by
  refine .next (((withStack_frame s l).or (jumpTo_frame _ a)).mono fun p hp => ?_)
  obtain rfl | rfl := hp
  · exact .inr (.inr (.inr hi))
  · exact .inl rfl

theorem exec_call_frame (nnn : Addr12) (s : State) : EndsIn (UnchangedBut (Touches (.call nnn) s) s) (exec (.call nnn) s) := by
  by_cases h : s.cfg.stackOverflow = .fault ∧ s.sp = stackDepth
  · rw [exec_call_of_full nnn h]
    exact .next (raise_touches _)
  · rw [exec_call_of_room nnn h]
    exact .stack_jump rfl

theorem exec_ret_frame (s : State) : EndsIn (UnchangedBut (Touches .ret s) s) (exec .ret s) := by
  obtain ⟨l, a, h, -⟩ | ⟨h, hc, -⟩ | ⟨h, hc, -⟩ := pop_cases s
  · rw [exec_ret_of_append h]
    exact .stack_jump rfl
  · rw [exec_ret_of_pcZero h hc]
    exact .jumps (jumpTo_frame s _)
  · rw [exec_ret_of_underflow h hc]
    exact .next (raise_touches _)

theorem exec_ldVxK_frame (x : Reg) (s : State) : EndsIn (UnchangedBut (Touches (.ldVxK x) s) s) (exec (.ldVxK x) s) := by
  cases hk : s.waitedKey with
  | none =>
    rw [exec_ldVxK_of_none hk]
    exact .next (((jumpTo_frame s _).or (armWait_frame _)).mono fun p hp => hp.imp id fun h => .inr (.inr (.inr (.inl h))))
  | some k =>
    rw [exec_ldVxK_of_some hk]
    exact .writes ((setV_frame s x _).or (withLatch_frame _ _ _))

theorem setV_logicFlag_frame (s : State) (x : Reg) (r : Byte) :
    UnchangedBut (fun p => p = .v x ∨ p = .v vf ∨ p = .draws) s (s.setV x r).logicFlag :=
  (setV_frame s x r).or (logicFlag_frame _)

/-- Every instruction leaves every part it does not touch as it was. -/
theorem exec_frame_ends (i : Instr) (s : State) : EndsIn (UnchangedBut (Touches i s) s) (exec i s) := by
  cases i
  case sys => exact .writes (diag_frame s _)
  case cls => exact .writes (withFb_frame s _)
  case ret => exact exec_ret_frame s
  case call nnn => exact exec_call_frame nnn s
  case ldVxK x => exact exec_ldVxK_frame x s
  case jp => exact .jumps (jumpTo_frame s _)
  case jpV0 => exact .admitted (refuse_touches _) ((jumpTo_frame s _).mono fun _ => .inl)
  case seImm | sneImm | seReg | sneReg => exact .jumps (skipIf_frame s _)
  case skp | sknp => exact .jumps_map fun _ _ => skipIf_frame s _
  case ldImm | addImm | ldVxDt => exact .writes (setV_frame s _ _)
  case ldReg => exact .writes_admitted (setV_frame s _ _)
  case rnd x nn => exact .writes_admitted (((withDraws_frame s _).or (setV_frame _ x _)).mono fun _ => Or.symm)
  case orReg | andReg | xorReg => exact .writes (setV_logicFlag_frame s _ _)
  case addReg | subReg | shr | subn | shl => exact .writes (setResultFlag_frame s _ _ _)
  case ldI | addIVx => exact .writes (setI_frame s _)
  case ldFVx => exact .writes_admitted (setI_frame s _)
  case drw => exact .writes_map fun _ _ => setCanvas_frame s _
  case ldDtVx => exact .writes (withDt_frame s _)
  case ldStVx => exact .writes (withSt_frame s _)
  case ldBVx x =>
    refine .complete raise_touches fun t ht => UnchangedBut.touches ?_
    obtain ⟨hle, rfl⟩ := memWrite_cases ht
    exact (writeBytes_frame s _ _).mono fun _ hp => ⟨hle, hp⟩
  case ldMemVx x =>
    refine .writes_map fun t ht => ?_
    obtain ⟨hle, rfl⟩ := memWrite_cases ht
    rw [dumpBytes_length] at hle
    refine ((writeBytes_frame s _ _).or (advanceI_frame_of_cfg _ x)).mono fun p hp => hp.imp (fun h => ?_) fun h => ?_
    · rw [dumpBytes_length] at h
      exact ⟨hle, h⟩
    · rwa [State.writeBytes_eq] at h
  case ldVxMem x =>
    refine .writes_map fun bs hbs => ?_
    refine ((loadRegs_frame_of_memRead hbs).or (advanceI_frame_of_cfg _ x)).mono fun p hp => hp.imp id fun h => ?_
    rwa [loadRegs_eq] at h

theorem exec_frame {i : Instr} {s t : State} (h : exec i s = .next t) : UnchangedBut (Touches i s) s t :=
  (exec_frame_ends i s).of_eq_next h

end Sys2Proof.Machine
end

section
/-! What follows from the frames part by part: the instructions that change a register, a timer, I, memory, the framebuffer,
the latch or the stack (spec 10_state R21-R34, 20_memory R61, 43_display R218). -/

namespace Sys2Proof

open Machine

section
variable {i : Instr} {s : State}

theorem Instr.writesReg_of_writes {r : Reg} (h : i.Writes s (.v r)) : i.WritesReg r := by
  cases i <;> simp_all [Instr.Writes, Instr.WritesReg, Part.isPixel, Part.inBlock]

theorem Instr.Writes.eq_ldDtVx (h : i.Writes s .dt) : ∃ x, i = .ldDtVx x := by
  cases i <;> simp_all [Instr.Writes, Part.isPixel, Part.inBlock]

theorem Instr.Writes.eq_ldStVx (h : i.Writes s .st) : ∃ x, i = .ldStVx x := by
  cases i <;> simp_all [Instr.Writes, Part.isPixel, Part.inBlock]

theorem Instr.Writes.eq_sys (h : i.Writes s .diagOut) : ∃ nnn, i = .sys nnn := by
  cases i <;> simp_all [Instr.Writes, Part.isPixel, Part.inBlock]

/-- R23: the five writers of I, `Fx55` and `Fx65` only under `ldst_inc_i`. -/
theorem Instr.Writes.index_cases (h : i.Writes s .i) :
    (∃ nnn, i = .ldI nnn) ∨ (∃ x, i = .addIVx x ∨ i = .ldFVx x) ∨
    (s.cfg.ldstIncI = true ∧ ∃ x, i = .ldMemVx x ∨ i = .ldVxMem x) := by
  cases i <;> simp_all [Instr.Writes, Part.isPixel, Part.inBlock]

/-- R61: the two writers of memory, with the bytes they may write. -/
theorem Instr.Writes.memory_cases {a : Nat} (h : i.Writes s (.mem a)) :
    ∃ x, a < 4096 ∧ s.i.toNat ≤ a ∧
      (i = .ldBVx x ∧ a < s.i.toNat + 3 ∨ i = .ldMemVx x ∧ a < s.i.toNat + (x.toNat + 1)) := by
  have hbytes {n : Nat} (hle : s.i.toNat + n ≤ memSize) (hin : Part.inBlock s.i.toNat n (.mem a)) :
      a < 4096 ∧ s.i.toNat ≤ a ∧ a < s.i.toNat + n := by
    obtain ⟨j, hj, he⟩ := hin
    obtain rfl : a = s.i.toNat + j := Part.mem.inj he
    rw [memSize] at hle
    omega
  cases i
  case ldBVx x =>
    obtain ⟨hmem, hlo, hhi⟩ := hbytes h.1 h.2
    exact ⟨x, hmem, hlo, .inl ⟨rfl, hhi⟩⟩
  case ldMemVx x =>
    obtain ⟨hle, hin⟩ | ⟨-, hp⟩ := h
    · obtain ⟨hmem, hlo, hhi⟩ := hbytes hle hin
      exact ⟨x, hmem, hlo, .inr ⟨rfl, hhi⟩⟩
    · cases hp
  all_goals simp [Instr.Writes, Part.isPixel] at h

theorem Instr.Writes.pixel_cases {cx : Fin 64} {cy : Fin 32} (h : i.Writes s (.pixel cx cy)) :
    i = .cls ∨ ∃ x y n, i = .drw x y n := by
  cases i <;> simp_all [Instr.Writes, Part.isPixel, Part.inBlock]

theorem Instr.Writes.eq_ldVxK {p : Part} (h : i.Writes s p) (hp : p = .waitArmed ∨ p = .waitedKey) : ∃ x, i = .ldVxK x := by
  obtain rfl | rfl := hp <;> cases i <;> simp_all [Instr.Writes, Part.isPixel, Part.inBlock]

theorem Instr.Writes.stack_cases (h : i.Writes s .stack) : (∃ nnn, i = .call nnn) ∨ i = .ret := by
  cases i <;> simp_all [Instr.Writes, Part.isPixel, Part.inBlock]

/-- R8: no instruction has a parameter among its parts. -/
theorem Instr.not_writes_cfg : ¬i.Writes s .cfg := by cases i <;> simp [Instr.Writes, Part.isPixel, Part.inBlock]

end

end Sys2Proof

namespace Sys2Proof.Machine

section
variable {P : Part → Prop} {i : Instr} {s t : State}

theorem UnchangedBut.touched (h : UnchangedBut P s t) {p : Part} (hp : ¬p.same s t) : P p :=
  by_contra fun hn => hp (h p hn)

/-- A part other than PC, `Run` and the mark that differs after an instruction is one the instruction writes. -/
theorem exec_writes_of_changed (h : exec i s = .next t) {p : Part} (hp : ¬p.same s t)
    (hne : p ∉ [.pc, .run, .refused] := by simp) : i.Writes s p := by
  simp only [List.mem_cons, List.not_mem_nil, or_false, not_or] at hne
  obtain ⟨hpc, hrun, hmark⟩ := hne
  exact (((exec_frame h).touched hp).resolve_left hpc |>.resolve_left hrun).resolve_left hmark

/-- R123, R131: a call pushes the advanced PC, where the stack is not both bounded and full, or leaves the stack. -/
theorem exec_call_stack {nnn : Addr12} (h : exec (.call nnn) s = .next t) :
    t.stack = s.stack ∨
    (¬(s.cfg.stackOverflow = .fault ∧ s.sp = stackDepth) ∧ t.stack = s.stack ++ [s.pc]) := by
  by_cases hfull : s.cfg.stackOverflow = .fault ∧ s.sp = stackDepth
  · cases (exec_call_of_full nnn hfull).symm.trans h
    exact .inl rfl
  · cases (exec_call_of_room nnn hfull).symm.trans h
    exact .inr ⟨hfull, rfl⟩

/-- R124, R132: a return takes the last entry off, or leaves the stack. -/
theorem exec_ret_stack (h : exec .ret s = .next t) : t.stack = s.stack ∨ ∃ a, s.stack = t.stack ++ [a] := by
  obtain ⟨l, a, hl, -⟩ | ⟨he, hc, -⟩ | ⟨he, hc, -⟩ := pop_cases s
  · cases (exec_ret_of_append hl).symm.trans h
    exact .inr ⟨a, hl⟩
  · cases (exec_ret_of_pcZero he hc).symm.trans h
    exact .inl rfl
  · cases (exec_ret_of_underflow he hc).symm.trans h
    exact .inl rfl

/-- R133: what any instruction can do to the stack. -/
theorem exec_stack (h : exec i s = .next t) :
    t.stack = s.stack ∨
    (∃ nnn, i = .call nnn ∧ ¬(s.cfg.stackOverflow = .fault ∧ s.sp = stackDepth) ∧ t.stack = s.stack ++ [s.pc]) ∨
    (i = .ret ∧ ∃ a, s.stack = t.stack ++ [a]) := by
  by_cases hsame : t.stack = s.stack
  · exact .inl hsame
  · obtain ⟨nnn, rfl⟩ | rfl := (exec_writes_of_changed (p := .stack) h hsame).stack_cases
    · exact .inr (.inl ⟨nnn, rfl, (exec_call_stack h).resolve_left hsame⟩)
    · exact .inr (.inr ⟨rfl, (exec_ret_stack h).resolve_left hsame⟩)

theorem exec_keys (h : exec i s = .next t) : t.keys = s.keys := by
  obtain ⟨f, -, hr⟩ | ⟨-, -, hr⟩ | ⟨u, hu, hr⟩ := exec_ends i s <;> cases h.symm.trans hr
  · rfl
  · rfl
  · exact hu.keys

/-- R246: only `LD Vx, K` writes the wait state. -/
theorem exec_latch (h : exec i s = .next t) (hi : ∀ x, i ≠ .ldVxK x) :
    t.waitArmed = s.waitArmed ∧ t.waitedKey = s.waitedKey := by
  constructor <;> by_contra hne
  · obtain ⟨x, hx⟩ := (exec_writes_of_changed (p := .waitArmed) h hne).eq_ldVxK (.inl rfl)
    exact hi x hx
  · obtain ⟨x, hx⟩ := (exec_writes_of_changed (p := .waitedKey) h hne).eq_ldVxK (.inr rfl)
    exact hi x hx

theorem frameBuffer_eq_of_pixels {a b : FrameBuffer} (h : ∀ cx cy, getPixel a cx cy = getPixel b cx cy) : a = b :=
  Vector.ext fun cx hx => Vector.ext fun cy hy => h ⟨cx, hx⟩ ⟨cy, hy⟩

end

end Sys2Proof.Machine
end

section
open Sys2Proof Sys2Proof.Machine

/-- Settles O15: a register that differs is one the instruction writes. -/
theorem registersWrittenByInstruction : Obligations.RegistersWrittenByInstruction := by
  unfold Obligations.RegistersWrittenByInstruction
  intro i s t r h hr
  by_contra hne
  exact hr (Instr.writesReg_of_writes (exec_writes_of_changed (p := .v r) h hne))

/-- Settles O16: only a call and a return write the stack, each at its top. -/
theorem stackOnlyByCallAndReturn : Obligations.StackOnlyByCallAndReturn := by
  unfold Obligations.StackOnlyByCallAndReturn
  intro i s t h
  obtain hsame | ⟨nnn, hi, -, hpush⟩ | hpop := exec_stack h
  · exact .inl hsame
  · exact .inr (.inl ⟨nnn, hi, hpush⟩)
  · exact .inr (.inr hpop)

/-- Settles O17: each of DT, ST and I that differs names its writer. -/
theorem timersAndIndexWrittenByInstruction : Obligations.TimersAndIndexWrittenByInstruction := by
  unfold Obligations.TimersAndIndexWrittenByInstruction
  intro i s t h
  refine ⟨fun hi => ?_, fun hi => ?_, fun hld hi => ?_, fun hi hcfg => ?_⟩ <;> by_contra hne
  · obtain ⟨x, hx⟩ := (exec_writes_of_changed (p := .dt) h hne).eq_ldDtVx
    exact hi x hx
  · obtain ⟨x, hx⟩ := (exec_writes_of_changed (p := .st) h hne).eq_ldStVx
    exact hi x hx
  · obtain ⟨nnn, hn⟩ | ⟨x, hx⟩ | ⟨-, x, hx⟩ := (exec_writes_of_changed (p := .i) h hne).index_cases
    · exact hld nnn hn
    · obtain ⟨hadd, hfont, -, -⟩ := hi x
      exact hx.elim hadd hfont
    · obtain ⟨-, -, hdump, hload⟩ := hi x
      exact hx.elim hdump hload
  · obtain ⟨x, hx⟩ := hi
    obtain ⟨nnn, rfl⟩ | ⟨y, rfl | rfl⟩ | ⟨hinc, -⟩ := (exec_writes_of_changed (p := .i) h hne).index_cases
    · simp at hx
    · simp at hx
    · simp at hx
    · simp [hcfg] at hinc

/-- Settles O19: a byte that differs is one of the bytes its writer may write. -/
theorem memoryWrittenOnlyBy : Obligations.MemoryWrittenOnlyBy := by
  unfold Obligations.MemoryWrittenOnlyBy
  intro i s t a h hne
  obtain ⟨x, hmem, hlo, ⟨hi, hhi⟩ | ⟨hi, hhi⟩⟩ := (exec_writes_of_changed (p := .mem a) h hne).memory_cases
  · exact .inl ⟨x, hi, hlo, hhi, hmem⟩
  · exact .inr ⟨x, hi, hlo, hhi, hmem⟩

/-- Settles O20: no way an instruction ends changes a key, and only `LD Vx, K` writes the latch. -/
theorem keysAndLatchUnderInstructions : Obligations.KeysAndLatchUnderInstructions := by
  unfold Obligations.KeysAndLatchUnderInstructions
  exact fun _ _ _ h => ⟨exec_keys h, exec_latch h⟩

end

section
/-! Which parts of a state each transaction of the host can change (spec 10_state R37-R42), from the frames of the
instructions. -/

namespace Sys2Proof.Machine

/-- The parts a transaction can change, from the state `s` it starts in. -/
def Transaction.Writes (s : State) : Transaction → Part → Prop
  | .step, p => p ∈ [.pc, .run, .refused, .stepped, .diagOut] ∨
      ∃ i, decode (wordAt s s.pc.toNat) = .instr i ∧ i.Writes s.entry p
  | .timerTick, p => p = .dt ∨ p = .st
  | .keyPress k, p => p = .key k
  | .keyRelease k, p => p = .key k ∨ p = .waitArmed ∨ p = .waitedKey
  | .reset, p => p ∉ [.cfg, .refused, .draws]
  | .loadProgram image, p => s.stepped = false ∧ image.length ≤ progMax ∧ Part.inBlock progBase image.length p

section
variable {e : Transaction} {s t : State}

theorem withTimers_frame (s : State) (a b : Byte) : UnchangedBut (fun p => p = .dt ∨ p = .st) s { s with dt := a, st := b } :=
  (withDt_frame s a).or (withSt_frame _ b)

theorem releaseKey_frame (k : Key) (s : State) :
    UnchangedBut (fun p => p = .key k ∨ p = .waitArmed ∨ p = .waitedKey) s (releaseKey k s) := by
  obtain ⟨-, -, h⟩ | ⟨-, h⟩ := releaseKey_cases k s <;> rw [h]
  · exact (setKey_frame s k false).or (withLatch_frame _ _ _)
  · exact (setKey_frame s k false).mono fun _ => .inl

theorem resetBlock_frame (s : State) : UnchangedBut (fun p => p ∉ [.cfg, .refused, .draws]) s (resetBlock s) := by
  intro p hp
  simp only [List.mem_cons, List.not_mem_nil, or_false, not_not] at hp
  obtain rfl | rfl | rfl := hp <;> rfl

/-- R315, R316: a program load that answers a state found no step before it; it stores a fitting image or does nothing. -/
theorem loadProgram_cases {image : List Byte} (h : loadProgram image s = .next t) :
    s.stepped = false ∧ (image.length ≤ progMax ∧ t = s.writeBytes progBase image ∨ progMax < image.length ∧ t = s) := by
  unfold loadProgram at h
  split at h
  · cases h
  · next hstep =>
    refine ⟨Bool.eq_false_iff.mpr hstep, ?_⟩
    split at h
    · next hfits => exact .inl ⟨of_decide_eq_true hfits, (Host.Outcome.next.inj h).symm⟩
    · next hfits =>
      exact .inr ⟨Nat.lt_of_not_le fun hle => hfits (decide_eq_true hle), (Host.Outcome.next.inj h).symm⟩

theorem markStepped_frame (s : State) : UnchangedBut (fun p => p = .stepped) s s.markStepped := by
  intro p hp
  cases p with
  | stepped => exact absurd rfl hp
  | _ => rfl

theorem step_frame (h : step s = .next t) : UnchangedBut (Transaction.step.Writes s) s t := by
  obtain ⟨-, ⟨-, rfl⟩ | ⟨w, -, -, rfl⟩ | ⟨i, -, hd, hi⟩⟩ := step_cases h
  · refine ((markStepped_frame s).or (raiseAt_frame _ _ _)).mono fun p hp => .inl ?_
    obtain rfl | rfl | rfl := hp <;> simp
  · refine (entry_diag_frame s w).mono fun p hp => .inl ?_
    simp only [Part.among, List.mem_cons, List.not_mem_nil, or_false] at hp
    obtain rfl | rfl | rfl := hp <;> simp
  · refine ((entry_frame s).or (exec_frame hi)).mono fun p hp => ?_
    obtain (rfl | rfl) | rfl | rfl | rfl | hw := hp
    case inr.inr.inr.inr => exact .inr ⟨i, hd, hw⟩
    all_goals exact .inl (by simp)

/-- Every transaction leaves every part it does not write as it was. -/
theorem transact_frame (h : transact e s = .next t) : UnchangedBut (e.Writes s) s t := by
  cases e with
  | step => exact step_frame h
  | timerTick =>
    obtain ⟨-, -, hgo⟩ := whenEnabled_next h
    cases hgo
    exact withTimers_frame s _ _
  | keyPress k =>
    obtain ⟨-, -, hgo⟩ := whenEnabled_next h
    cases hgo
    exact setKey_frame s k true
  | keyRelease k =>
    obtain ⟨-, -, hgo⟩ := whenEnabled_next h
    cases hgo
    exact releaseKey_frame k s
  | reset =>
    cases h
    exact resetBlock_frame s
  | loadProgram image =>
    obtain ⟨hstep, ⟨hle, rfl⟩ | ⟨-, rfl⟩⟩ := loadProgram_cases h
    · exact (writeBytes_frame s progBase image).mono fun _ hp => ⟨hstep, hle, hp⟩
    · exact UnchangedBut.refl

/-- A part that differs after a transaction, outside those every step may set, changed in a step of an instruction that writes
it, or in one of the other five transactions. -/
theorem transact_cases (h : transact e s = .next t) {p : Part} (hp : ¬p.same s t)
    (hne : p ∉ [.pc, .run, .refused, .stepped, .diagOut] := by simp) :
    (e = .step ∧ ∃ i, decode (wordAt s s.pc.toNat) = .instr i ∧ i.Writes s.entry p) ∨ (e ≠ .step ∧ e.Writes s p) := by
  have hw := (transact_frame h).touched hp
  cases e with
  | step => exact .inl ⟨rfl, hw.resolve_left hne⟩
  | _ => exact .inr ⟨Transaction.noConfusion, hw⟩

theorem Transaction.Writes.timer_cases {p : Part} (h : e.Writes s p) (hp : p = .dt ∨ p = .st) (he : e ≠ .step) :
    e = .timerTick ∨ e = .reset := by
  obtain rfl | rfl := hp <;> cases e <;> simp_all [Transaction.Writes, Part.inBlock]

theorem Transaction.Writes.eq_reset {p : Part} (h : e.Writes s p) (hp : p = .i ∨ p.isPixel) (he : e ≠ .step) : e = .reset := by
  obtain rfl | ⟨cx, cy, rfl⟩ := hp <;> cases e <;> simp_all [Transaction.Writes, Part.inBlock]

theorem Transaction.Writes.memory_cases {a : Nat} (h : e.Writes s (.mem a)) (he : e ≠ .step) :
    e = .reset ∨ ∃ image, e = .loadProgram image ∧ s.stepped = false ∧ 0x200 ≤ a ∧ a < 0x200 + image.length ∧ a < 4096 := by
  cases e
  case step => exact absurd rfl he
  case reset => exact .inl rfl
  case loadProgram image =>
    obtain ⟨hstep, hle, j, hj, hin⟩ := h
    obtain rfl : a = progBase + j := Part.mem.inj hin
    rw [progMax] at hle
    rw [progBase]
    exact .inr ⟨image, rfl, hstep, by omega, by omega, by omega⟩
  all_goals simp [Transaction.Writes] at h

/-- R8: the configuration is a part that nothing writes. -/
theorem transact_cfg (h : transact e s = .next t) : t.cfg = s.cfg := by
  refine transact_frame h .cfg fun hw => ?_
  cases e
  case step =>
    obtain hp | ⟨i, -, hi⟩ := hw
    · simp at hp
    · exact Instr.not_writes_cfg hi
  all_goals simp [Transaction.Writes, Part.inBlock] at hw

end

end Sys2Proof.Machine
end

section
open Sys2Proof Sys2Proof.Machine

/-- Settles O21: the configuration is outside the frame of every transaction. -/
theorem configurationNeverChanges : Obligations.ConfigurationNeverChanges := by
  unfold Obligations.ConfigurationNeverChanges
  exact fun _ _ _ h => transact_cfg h

/-- Settles O18: a framebuffer that differs differs at a pixel, and a pixel names its writer. -/
theorem framebufferWrittenOnlyBy : Obligations.FramebufferWrittenOnlyBy := by
  unfold Obligations.FramebufferWrittenOnlyBy
  intro e s t h hfb
  have hpixel : ∃ cx cy, ¬(Part.pixel cx cy).same s t := by
    by_contra hall
    push Not at hall
    exact hfb (frameBuffer_eq_of_pixels hall)
  obtain ⟨cx, cy, hp⟩ := hpixel
  obtain ⟨he, i, hd, hi⟩ | ⟨he, hw⟩ := transact_cases h hp
  · exact .inr ⟨he, i, hd, hi.pixel_cases⟩
  · exact .inl (hw.eq_reset (.inr ⟨cx, cy, rfl⟩) he)

/-- Settles O59: a timer or I that differs names its writer among the transactions and the instructions. -/
theorem timersAndIndexChangedOnlyBy : Obligations.TimersAndIndexChangedOnlyBy := by
  unfold Obligations.TimersAndIndexChangedOnlyBy
  intro e s t h
  refine ⟨fun hne => ?_, fun hne => ?_, fun hne => ?_⟩
  · obtain ⟨he, i, hd, hi⟩ | ⟨he, hw⟩ := transact_cases (p := .dt) h hne
    · obtain ⟨x, rfl⟩ := hi.eq_ldDtVx
      exact .inr (.inr ⟨he, x, hd⟩)
    · exact (hw.timer_cases (.inl rfl) he).imp id .inl
  · obtain ⟨he, i, hd, hi⟩ | ⟨he, hw⟩ := transact_cases (p := .st) h hne
    · obtain ⟨x, rfl⟩ := hi.eq_ldStVx
      exact .inr (.inr ⟨he, x, hd⟩)
    · exact (hw.timer_cases (.inr rfl) he).imp id .inl
  · obtain ⟨he, i, hd, hi⟩ | ⟨he, hw⟩ := transact_cases (p := .i) h hne
    · exact .inr ⟨he, i, hd, hi.index_cases⟩
    · exact .inl (hw.eq_reset (.inl rfl) he)

/-- Settles O60: a byte that differs is one of the bytes its transaction or its instruction may write. -/
theorem memoryChangedOnlyBy : Obligations.MemoryChangedOnlyBy := by
  unfold Obligations.MemoryChangedOnlyBy
  intro e s t a h hne
  obtain ⟨he, i, hd, hi⟩ | ⟨he, hw⟩ := transact_cases (p := .mem a) h hne
  · obtain ⟨x, hmem, hlo, ⟨rfl, hhi⟩ | ⟨rfl, hhi⟩⟩ := hi.memory_cases
    · exact .inr (.inr ⟨he, x, hmem, hlo, .inl ⟨hd, hhi⟩⟩)
    · exact .inr (.inr ⟨he, x, hmem, hlo, .inr ⟨hd, hhi⟩⟩)
  · exact (hw.memory_cases he).imp id .inl

end

section
/-! How a step ends (spec 60_exceptions R280-R288): it raises, it is refused, or it completes. -/

namespace Sys2Proof

/-- R102: the four refusable instructions have no unexamined bit, so each encodes to the word it was decoded from. -/
theorem encode_of_decode_refusable {w : Word} {i : Instr} (h : decode w = .instr i) (hi : i.Refusable) : encode i = w := by
  obtain ⟨-, ⟨-, -, henc⟩ | ⟨-, rfl⟩ | ⟨-, rfl⟩⟩ := decodedFrom_of_decode h
  · exact henc
  · exact hi.elim
  · exact hi.elim

end Sys2Proof

namespace Sys2Proof.Machine

section
variable {s t : State} {f : Fatal} {i : Instr}

/-- The condition a step from `s` raises, the fetch's first (R288). -/
def StepRaises (s : State) (f : Fatal) : Prop :=
  (memSize < s.pc.toNat + 2 ∧ f = .memOutOfRange s.pc.toNat 2) ∨
  (s.pc.toNat + 2 ≤ memSize ∧ ∃ i, decode (wordAt s s.pc.toNat) = .instr i ∧ RaisesFrom i s.entry f)

/-- The step from `s` fetches an instruction that the configuration refuses (R102). -/
def StepRefuses (s : State) : Prop :=
  s.cfg.admitGkOps = false ∧ s.pc.toNat + 2 ≤ memSize ∧ ∃ i, decode (wordAt s s.pc.toNat) = .instr i ∧ i.Refusable

/-- What a step leaves that raises `f`: the old state with `Run` set (R282), and the launch bit. -/
def State.raised (s : State) (f : Fatal) : State := { s with run := .faulted f s.pc, stepped := true }

/-- What a refused step leaves: the old state with the mark set (R287), and the launch bit. -/
def State.marked (s : State) : State := { s with refused := some ⟨wordAt s s.pc.toNat, s.pc⟩, stepped := true }

theorem entry_raiseAt (s : State) (f : Fatal) : s.entry.raiseAt s.entry.fpc f = s.raised f := by
  rw [State.entry_fpc]
  rfl

theorem entry_refuse (s : State) : s.entry.refuse (wordAt s s.pc.toNat) = s.marked := by
  rw [State.refuse, State.entry_fpc]
  rfl

/-- The three ways a step ends. -/
theorem step_ends (h : step s = .next t) :
    (∃ f, StepRaises s f ∧ t = s.raised f) ∨ (StepRefuses s ∧ t = s.marked) ∨ Completes s.markStepped t := by
  obtain ⟨-, ⟨hpast, rfl⟩ | ⟨w, -, -, rfl⟩ | ⟨i, hfits, hd, hi⟩⟩ := step_cases h
  · exact .inl ⟨_, .inl ⟨hpast, rfl⟩, rfl⟩
  · exact .inr (.inr ⟨rfl, rfl, rfl, rfl, rfl⟩)
  · obtain ⟨f, hf, hr⟩ | ⟨href, hcfg, hr⟩ | ⟨u, hu, hr⟩ := exec_ends i s.entry <;> cases hi.symm.trans hr
    · exact .inl ⟨f, .inr ⟨hfits, i, hd, hf⟩, entry_raiseAt s f⟩
    · rw [encode_of_decode_refusable hd href]
      exact .inr (.inl ⟨⟨hcfg, hfits, i, hd, href⟩, entry_refuse s⟩)
    · exact .inr (.inr ⟨hu.run, hu.refused, hu.cfg, hu.stepped, hu.keys⟩)

theorem exec_of_refused (hi : i.Refusable) (hc : s.cfg.admitGkOps = false) : exec i s = .next (s.refuse (encode i)) := by
  cases i
  case ldReg | jpV0 | rnd | ldFVx => exact admitted_of_false hc _ _
  all_goals exact hi.elim

theorem step_of_refuses (hs : s.Safe) (h : StepRefuses s) : step s = .next s.marked := by
  obtain ⟨hc, hfits, i, hd, hi⟩ := h
  rw [step_of_instr hs hfits hd, exec_of_refused (s := s.entry) hi hc, encode_of_decode_refusable hd hi, entry_refuse]

/-- R287: the mark is set exactly by the steps that are refused. -/
theorem step_marks_iff (h : step s = .next t) : t.refused ≠ none ↔ StepRefuses s := by
  obtain ⟨hs, -⟩ := step_cases h
  constructor
  · intro hm
    obtain ⟨f, -, rfl⟩ | ⟨href, -⟩ | hc := step_ends h
    · exact absurd hs.2 hm
    · exact href
    · exact absurd (hc.refused.trans hs.2) hm
  · intro href
    obtain rfl : t = s.marked := Host.Outcome.next.inj (h.symm.trans (step_of_refuses hs href))
    exact Option.some_ne_none _

/-- R287: a running block that holds the mark has no move. -/
theorem runRefused_of_marked {d : Diag} (hr : s.run = .running) (hm : s.refused = some d) : RunRefused d s :=
  ⟨whenEnabled_marked hr hm _, whenEnabled_marked hr hm _, fun _ => ⟨whenEnabled_marked hr hm _, whenEnabled_marked hr hm _⟩⟩

/-- R283: a faulted block is stuck. -/
theorem whenEnabled_faulted {p : Word} (h : s.run = .faulted f p) (go : Host.Outcome State Fault Refusal) :
    whenEnabled s go = .fault (.halted f p) := by
  unfold whenEnabled
  rw [h]

/-- R91: the state a body starts in, with the advance of PC written as a number. -/
theorem State.entry_eq (s : State) :
    s.entry = { s with pc := BitVec.ofNat 16 (s.pc.toNat + 2), stepped := true } := by
  rw [BitVec.ofNat_add, BitVec.ofNat_toNat, BitVec.setWidth_eq]
  rfl

end

end Sys2Proof.Machine
end

section
open Sys2Proof Sys2Proof.Machine

/-- Settles O5: one clause for each of a fetched instruction, an unmatched word, a fetch past memory and a stuck block. -/
theorem stepFetchesDecodesExecutes : Obligations.StepFetchesDecodesExecutes := by
  unfold Obligations.StepFetchesDecodesExecutes
  intro s
  refine ⟨fun hs hfits w hw => ?_, step_of_fetch_past_memory, fun f p h => whenEnabled_faulted h _⟩
  obtain rfl := wordAt_eq_of_toNat hw
  refine ⟨fun i hd => ?_, fun u hd => ?_⟩
  · rw [step_of_instr hs hfits hd, State.entry_eq]
  · obtain ⟨rfl, -⟩ := matchesNoRow_of_decode hd
    rw [step_of_unmatched hs hfits hd, State.diag, State.entry_fpc, State.entry_eq]

/-- Settles O7: each of the four transactions is enabled only in a running block, and reset sets `Run`. -/
theorem faultedBlockIsStuck : Obligations.FaultedBlockIsStuck := by
  unfold Obligations.FaultedBlockIsStuck
  intro s f p h
  exact ⟨whenEnabled_faulted h _, whenEnabled_faulted h _, fun _ => whenEnabled_faulted h _, fun _ => whenEnabled_faulted h _,
    _, rfl, rfl⟩

/-- Settles O8: of the three ways a step ends, only a raise sets `Run`. -/
theorem fatalConditionsArePrecise : Obligations.FatalConditionsArePrecise := by
  unfold Obligations.FatalConditionsArePrecise
  intro s t h hrun
  obtain ⟨f, -, ht⟩ | ⟨-, rfl⟩ | hc := step_ends h
  · exact ⟨f, ht⟩
  · exact absurd rfl hrun
  · exact absurd hc.run hrun

/-- Settles O9: a step leaves a fault only by raising it, in the fetch or in the instruction whose check it is. -/
theorem fatalConditionsByInstruction : Obligations.FatalConditionsByInstruction := by
  unfold Obligations.FatalConditionsByInstruction
  intro s t f p h hrun
  obtain ⟨⟨hrunning, -⟩, -⟩ := step_cases h
  obtain ⟨g, hg, rfl⟩ | ⟨-, rfl⟩ | hc := step_ends h
  · obtain ⟨rfl, rfl⟩ := Run.faulted.inj hrun
    refine ⟨rfl, ?_⟩
    obtain ⟨hpast, rfl⟩ | ⟨hfits, i, hd, hi⟩ := hg
    · exact (if_pos hpast).mpr rfl
    · refine (if_neg (Nat.not_lt.mpr hfits)).mpr ⟨i, hd, ?_⟩
      cases i
      case drw x y n => obtain ⟨rfl, hlt⟩ := hi; exact ⟨rfl, hlt, .inl ⟨x, y, n, rfl, rfl⟩⟩
      case ldBVx x => obtain ⟨rfl, hlt⟩ := hi; exact ⟨rfl, hlt, .inr (.inl ⟨x, rfl, rfl⟩)⟩
      case ldMemVx x => obtain ⟨rfl, hlt⟩ := hi; exact ⟨rfl, hlt, .inr (.inr ⟨x, .inl rfl, rfl⟩)⟩
      case ldVxMem x => obtain ⟨rfl, hlt⟩ := hi; exact ⟨rfl, hlt, .inr (.inr ⟨x, .inr rfl, rfl⟩)⟩
      case skp x => obtain ⟨rfl, hlt⟩ := hi; exact ⟨hlt, x, .inl rfl, rfl⟩
      case sknp x => obtain ⟨rfl, hlt⟩ := hi; exact ⟨hlt, x, .inr rfl, rfl⟩
      case call nnn => obtain ⟨rfl, hcfg, hsp⟩ := hi; exact ⟨hcfg, rfl, hsp, rfl, nnn, rfl⟩
      case ret => obtain ⟨rfl, hcfg, hstack⟩ := hi; exact ⟨hcfg, List.length_eq_zero_iff.mpr hstack, rfl⟩
      all_goals exact hi.elim
  · cases hrunning.symm.trans hrun
  · cases hrunning.symm.trans (hc.run.symm.trans hrun)

/-- Settles O10: the mark is set exactly by a refused step, which changes nothing else, and no later transaction clears it. -/
theorem refusalMarksTheRun : Obligations.RefusalMarksTheRun := by
  unfold Obligations.RefusalMarksTheRun
  intro s t h
  obtain ⟨hs, -⟩ := step_cases h
  refine ⟨step_marks_iff h, fun hm => ?_⟩
  obtain rfl : t = s.marked := Host.Outcome.next.inj (h.symm.trans (step_of_refuses hs ((step_marks_iff h).mp hm)))
  exact ⟨rfl, runRefused_of_marked hs.1 rfl, resetBlock s.marked, rfl, rfl, runRefused_of_marked rfl rfl⟩

end

section
/-! The invariant of the block (spec 10_state R26, R243; 20_memory R60; 60_exceptions R281, R287; 70_reset_and_hazards R311,
R316), clause by clause over a step, then over every transaction. -/

namespace Sys2Proof.Machine

/-- The memory clause of the invariant. -/
def State.MemWf (s : State) : Prop := Memory.wf (resetByte s.cfg) s.mem

/-- The latch clause of the invariant: the pair (armed, some key) is excluded (R243). -/
def State.LatchOk (s : State) : Prop := s.waitArmed = true → s.waitedKey = none

/-- The stack clause of the invariant (R26). -/
def State.StackOk (s : State) : Prop := s.cfg.stackOverflow = .fault → s.sp ≤ stackDepth

section
variable {s t : State} {i : Instr}

/-! ### Memory -/

theorem State.MemWf.skipIf (h : s.MemWf) (c : Bool) : (s.skipIf c).MemWf := by cases c <;> exact h

theorem State.MemWf.logicFlag (h : s.MemWf) : s.logicFlag.MemWf := by
  unfold State.logicFlag
  split <;> exact h

theorem State.MemWf.advanceI (h : s.MemWf) (x : Reg) : (advanceI s x).MemWf := by
  unfold Machine.advanceI
  split <;> exact h

theorem State.MemWf.loadRegs (h : s.MemWf) (j : Nat) (bs : List Byte) : (loadRegs s j bs).MemWf := by
  rw [loadRegs_eq]
  exact h

theorem State.MemWf.writeBytes (h : s.MemWf) {a : Nat} {bs : List Byte} (hle : a + bs.length ≤ memSize) :
    (s.writeBytes a bs).MemWf := by
  have hwf := s.writeBytes_wf a bs h hle
  rw [State.writeBytes_eq]
  exact hwf

theorem State.MemWf.of_memWrite (h : s.MemWf) {a : Nat} {bs : List Byte} (hw : memWrite s a bs = .ok t) : t.MemWf := by
  obtain ⟨hle, rfl⟩ := memWrite_cases hw
  exact h.writeBytes hle

theorem exec_ret_memWf (h : s.MemWf) : EndsIn State.MemWf (exec .ret s) := by
  obtain ⟨l, a, hl, -⟩ | ⟨he, hc, -⟩ | ⟨he, hc, -⟩ := pop_cases s
  · rw [exec_ret_of_append hl]; exact .next h
  · rw [exec_ret_of_pcZero he hc]; exact .next h
  · rw [exec_ret_of_underflow he hc]; exact .next h

theorem exec_call_memWf (h : s.MemWf) (nnn : Addr12) : EndsIn State.MemWf (exec (.call nnn) s) := by
  by_cases hfull : s.cfg.stackOverflow = .fault ∧ s.sp = stackDepth
  · rw [exec_call_of_full nnn hfull]; exact .next h
  · rw [exec_call_of_room nnn hfull]; exact .next h

theorem exec_ldVxK_memWf (h : s.MemWf) (x : Reg) : EndsIn State.MemWf (exec (.ldVxK x) s) := by
  cases hk : s.waitedKey with
  | none => rw [exec_ldVxK_of_none hk]; exact .next h
  | some k => rw [exec_ldVxK_of_some hk]; exact .next h

/-- R60: every instruction keeps memory canonical; only two write it, each inside its checked block. -/
theorem exec_memWf (h : s.MemWf) (i : Instr) : EndsIn State.MemWf (exec i s) := by
  cases i
  case ret => exact exec_ret_memWf h
  case call nnn => exact exec_call_memWf h nnn
  case ldVxK x => exact exec_ldVxK_memWf h x
  case seImm | sneImm | seReg | sneReg => exact .next (h.skipIf _)
  case skp | sknp => exact .complete_map (fun _ => h) fun _ _ => h.skipIf _
  case orReg | andReg | xorReg => exact .next (State.MemWf.logicFlag h)
  case ldReg | jpV0 | rnd | ldFVx => exact .admitted h h
  case drw => exact .complete_map (fun _ => h) fun _ _ => h
  case ldBVx => exact .complete (fun _ => h) fun _ ht => h.of_memWrite ht
  case ldMemVx x => exact .complete_map (fun _ => h) fun _ ht => (h.of_memWrite ht).advanceI x
  case ldVxMem x => exact .complete_map (fun _ => h) fun bs _ => (h.loadRegs 0 bs).advanceI x
  case sys | cls | jp | ldImm | addImm | addReg | subReg | shr | subn | shl | ldI | ldVxDt | ldDtVx | ldStVx | addIVx =>
    exact .next h

theorem step_keeps_memWf (h : s.MemWf) (hst : step s = .next t) : t.MemWf := by
  obtain ⟨-, ⟨-, rfl⟩ | ⟨w, -, -, rfl⟩ | ⟨i, -, -, hi⟩⟩ := step_cases hst
  · exact h
  · exact h
  · exact (exec_memWf (s := s.entry) h i).of_eq_next hi

/-! ### The latch -/

theorem exec_keeps_latchOk (h : s.LatchOk) (hi : exec i s = .next t) : t.LatchOk := by
  by_cases hk : ∃ x, i = .ldVxK x
  · obtain ⟨x, rfl⟩ := hk
    cases hw : s.waitedKey with
    | none => cases (exec_ldVxK_of_none hw x).symm.trans hi; exact fun _ => hw
    | some k => cases (exec_ldVxK_of_some hw x).symm.trans hi; exact fun _ => rfl
  · obtain ⟨harmed, hkey⟩ := exec_latch hi (not_exists.mp hk)
    rw [State.LatchOk, harmed, hkey]
    exact h

theorem step_keeps_latchOk (h : s.LatchOk) (hst : step s = .next t) : t.LatchOk := by
  obtain ⟨-, ⟨-, rfl⟩ | ⟨w, -, -, rfl⟩ | ⟨i, -, -, hi⟩⟩ := step_cases hst
  · exact h
  · exact h
  · exact exec_keeps_latchOk (s := s.entry) h hi

/-! ### The stack -/

theorem exec_cfg (hi : exec i s = .next t) : t.cfg = s.cfg :=
  exec_frame hi .cfg fun hw => by simp [Touches, Instr.not_writes_cfg] at hw

/-- R26, R131: a push finds a bounded stack not full, so it leaves at most 16 entries. -/
theorem exec_keeps_stackOk (h : s.StackOk) (hi : exec i s = .next t) : t.StackOk := by
  intro hb
  rw [exec_cfg hi] at hb
  have hs := h hb
  simp only [State.sp] at hs ⊢
  obtain hsame | ⟨nnn, -, hroom, hpush⟩ | ⟨-, a, hpop⟩ := exec_stack hi
  · rwa [hsame]
  · have hne : s.stack.length ≠ stackDepth := fun he => hroom ⟨hb, he⟩
    rw [hpush, List.length_append, List.length_singleton]
    omega
  · rw [hpop, List.length_append] at hs
    omega

theorem step_keeps_stackOk (h : s.StackOk) (hst : step s = .next t) : t.StackOk := by
  obtain ⟨-, ⟨-, rfl⟩ | ⟨w, -, -, rfl⟩ | ⟨i, -, -, hi⟩⟩ := step_cases hst
  · exact h
  · exact h
  · exact exec_keeps_stackOk (s := s.entry) h hi

/-! ### `Run`, the mark and the launch bit -/

theorem RaisesFrom.sound {f : Fatal} (h : RaisesFrom i s f) : f.Sound s.cfg := by
  cases i
  case drw | ldBVx | ldMemVx | ldVxMem | skp | sknp => obtain ⟨rfl, hlt⟩ := h; exact hlt
  case call => obtain ⟨rfl, hcfg, -⟩ := h; exact ⟨hcfg, rfl⟩
  case ret => obtain ⟨rfl, hcfg, -⟩ := h; exact hcfg
  all_goals exact h.elim

theorem StepRaises.sound {f : Fatal} (h : StepRaises s f) : f.Sound s.cfg := by
  obtain ⟨hpast, rfl⟩ | ⟨-, i, -, hi⟩ := h
  · exact hpast
  · exact hi.sound

theorem Run.sound_of_running (h : t.run = .running) : t.run.Sound t := by rw [h]; trivial

/-- Every step keeps the invariant: what it executes keeps the first three clauses, the way it ends the other three. -/
theorem step_keeps_inv (h : s.Inv) (hst : step s = .next t) : t.Inv := by
  obtain ⟨⟨hrun, hmark⟩, -⟩ := step_cases hst
  have hmem := step_keeps_memWf h.mem hst
  have hstack := step_keeps_stackOk h.stack hst
  have hlatch := step_keeps_latchOk h.latch hst
  obtain ⟨f, hf, rfl⟩ | ⟨⟨hcfg, -⟩, rfl⟩ | hc := step_ends hst
  · exact ⟨hmem, hstack, hlatch, ⟨rfl, hf.sound⟩, h.mark, fun hl => absurd hl (by simp [State.raised])⟩
  · exact ⟨hmem, hstack, hlatch, Run.sound_of_running hrun, fun _ => hcfg, fun hl => absurd hl (by simp [State.marked])⟩
  · have hstepped : t.stepped = true := hc.stepped
    exact ⟨hmem, hstack, hlatch, Run.sound_of_running (hc.run.trans hrun), fun hm => absurd (hc.refused.trans hmark) hm,
      fun hl => absurd (hstepped.symm.trans hl) (by simp)⟩

/-! ### The other transactions -/

theorem inv_resetWith (c : Config) (mark : Option Diag) (draws : Nat) :
    (State.resetWith c mark draws).Inv ↔ (mark ≠ none → c.admitGkOps = false) :=
  ⟨fun h => h.mark, fun h => ⟨wf_nil, fun _ => Nat.zero_le _, fun _ => rfl, trivial, h, fun _ => ⟨rfl, rfl⟩⟩⟩

theorem releaseKey_keeps_inv (h : s.Inv) (hr : s.run = .running) (k : Key) : (releaseKey k s).Inv := by
  obtain ⟨-, -, he⟩ | ⟨-, he⟩ := releaseKey_cases k s <;> rw [he]
  · exact ⟨h.mem, h.stack, fun ha => by simp at ha, Run.sound_of_running hr, h.mark, h.launch⟩
  · exact ⟨h.mem, h.stack, h.latch, Run.sound_of_running hr, h.mark, h.launch⟩

theorem writeBytes_keeps_inv (h : s.Inv) (hr : s.run = .running) {a : Nat} {bs : List Byte} (hle : a + bs.length ≤ memSize) :
    (s.writeBytes a bs).Inv := by
  have hwf : (s.writeBytes a bs).MemWf := State.MemWf.writeBytes h.mem hle
  rw [State.writeBytes_eq] at hwf ⊢
  exact ⟨hwf, h.stack, h.latch, Run.sound_of_running hr, h.mark, h.launch⟩

theorem transact_keeps_inv {e : Transaction} (h : s.Inv) (ht : transact e s = .next t) : t.Inv := by
  cases e with
  | step => exact step_keeps_inv h ht
  | timerTick =>
    obtain ⟨hr, -, hgo⟩ := whenEnabled_next ht
    cases hgo
    exact ⟨h.mem, h.stack, h.latch, Run.sound_of_running hr, h.mark, h.launch⟩
  | keyPress k =>
    obtain ⟨hr, -, hgo⟩ := whenEnabled_next ht
    cases hgo
    exact ⟨h.mem, h.stack, h.latch, Run.sound_of_running hr, h.mark, h.launch⟩
  | keyRelease k =>
    obtain ⟨hr, -, hgo⟩ := whenEnabled_next ht
    cases hgo
    exact releaseKey_keeps_inv h hr k
  | reset =>
    cases ht
    exact (inv_resetWith _ _ _).mpr h.mark
  | loadProgram image =>
    obtain ⟨hstep, ⟨hle, rfl⟩ | ⟨-, rfl⟩⟩ := loadProgram_cases ht
    · rw [progMax] at hle
      exact writeBytes_keeps_inv h (h.launch hstep).1 (by rw [progBase, memSize]; omega)
    · exact h

end

end Sys2Proof.Machine
end

section
open Sys2Proof Sys2Proof.Machine

/-- Settles O12: the values of R311 meet every clause but the mark's, which is the condition. -/
theorem resetMeetsStateInv : Obligations.ResetMeetsStateInv := by
  unfold Obligations.ResetMeetsStateInv
  exact ⟨(inv_resetWith _ _ _).mpr fun h => absurd rfl h, inv_resetWith⟩

/-- Settles O13: each clause of the invariant is kept by the step. -/
theorem stepKeepsStateInv : Obligations.StepKeepsStateInv := by
  unfold Obligations.StepKeepsStateInv
  exact fun _ _ => step_keeps_inv

/-- Settles O14: each clause of the invariant is kept by the other transactions. -/
theorem hostTransactionsKeepStateInv : Obligations.HostTransactionsKeepStateInv := by
  unfold Obligations.HostTransactionsKeepStateInv
  exact fun _ _ _ _ => transact_keeps_inv

end

section
/-! The two parts that nothing reads: ST (spec 10_state R28) and DiagOut (R34). -/

namespace Sys2Proof.Machine

/-- The state with another sound timer and other diagnostics. -/
def State.withOutputs (s : State) (b : Byte) (ds : List Diag) : State := { s with st := b, diagOut := ds }

/-- The two answers are next states that differ in ST and DiagOut alone, the second's being `b` and `ds`. -/
def MatchOutputs (b : Byte) (ds : List Diag) (r r' : Host.Outcome State Fault Refusal) : Prop :=
  ∃ t, r = .next t ∧ r' = .next (t.withOutputs b ds)

section
variable {s t : State} {b : Byte} {ds : List Diag}

theorem MatchOutputs.next (t : State) : MatchOutputs b ds (.next t) (.next (t.withOutputs b ds)) := ⟨t, rfl, rfl⟩

theorem MatchOutputs.admitted (w : Word) (t : State) :
    MatchOutputs b ds (Machine.admitted s w t) (Machine.admitted (s.withOutputs b ds) w (t.withOutputs b ds)) := by
  unfold Machine.admitted
  rw [show (s.withOutputs b ds).cfg = s.cfg from rfl]
  split
  · exact .next t
  · exact .next (s.refuse w)

/-- An instruction whose checks read neither output. -/
theorem MatchOutputs.complete_map {α : Type} (r : Except Fatal α) (g g' : α → State)
    (hg : ∀ a, r = .ok a → g' a = (g a).withOutputs b ds) :
    MatchOutputs b ds (complete s (r.map g)) (complete (s.withOutputs b ds) (r.map g')) := by
  cases r with
  | ok a =>
    rw [except_map_ok, except_map_ok, hg a rfl]
    exact .next (g a)
  | error f => exact .next (s.raiseAt s.fpc f)

theorem skipIf_withOutputs (c : Bool) : (s.withOutputs b ds).skipIf c = (s.skipIf c).withOutputs b ds := by cases c <;> rfl

theorem logicFlag_withOutputs : (s.withOutputs b ds).logicFlag = s.logicFlag.withOutputs b ds := by
  unfold State.logicFlag
  rw [show (s.withOutputs b ds).cfg = s.cfg from rfl]
  split <;> rfl

theorem advanceI_withOutputs (x : Reg) : advanceI (s.withOutputs b ds) x = (advanceI s x).withOutputs b ds := by
  unfold advanceI
  rw [show (s.withOutputs b ds).cfg = s.cfg from rfl]
  split <;> rfl

theorem loadRegs_withOutputs (j : Nat) (bs : List Byte) :
    loadRegs (s.withOutputs b ds) j bs = (loadRegs s j bs).withOutputs b ds := by
  induction bs generalizing s j with
  | nil => rfl
  | cons c bs ih => exact ih (s := s.setV (BitVec.ofNat 4 j) c) (j + 1)

theorem writeBytes_withOutputs (a : Nat) (bs : List Byte) :
    (s.withOutputs b ds).writeBytes a bs = (s.writeBytes a bs).withOutputs b ds := by
  induction bs generalizing s a with
  | nil => rfl
  | cons c bs ih => exact ih (s := s.writeByte a c) (a + 1)

theorem memWrite_withOutputs (a : Nat) (bs : List Byte) :
    memWrite (s.withOutputs b ds) a bs = (memWrite s a bs).map fun t => t.withOutputs b ds := by
  unfold memWrite
  split
  · rw [writeBytes_withOutputs, except_map_ok]
  · rfl

/-- An instruction that stores a block, and then does what reads neither output. -/
theorem MatchOutputs.complete_memWrite (a : Nat) (bs : List Byte) (g : State → State)
    (hg : ∀ t : State, g (t.withOutputs b ds) = (g t).withOutputs b ds) :
    MatchOutputs b ds (complete s ((memWrite s a bs).map g))
      (complete (s.withOutputs b ds) ((memWrite (s.withOutputs b ds) a bs).map g)) := by
  rw [memWrite_withOutputs]
  cases memWrite s a bs with
  | ok t =>
    simp only [except_map_ok, hg]
    exact .next (g t)
  | error f => exact .next (s.raiseAt s.fpc f)

theorem exec_ret_withOutputs : MatchOutputs b ds (exec .ret s) (exec .ret (s.withOutputs b ds)) := by
  obtain ⟨l, a, h, -⟩ | ⟨h, hc, -⟩ | ⟨h, hc, -⟩ := pop_cases s
  · rw [exec_ret_of_append h, exec_ret_of_append (s := s.withOutputs b ds) h]
    exact .next _
  · rw [exec_ret_of_pcZero h hc, exec_ret_of_pcZero (s := s.withOutputs b ds) h hc]
    exact .next _
  · rw [exec_ret_of_underflow h hc, exec_ret_of_underflow (s := s.withOutputs b ds) h hc]
    exact .next _

theorem exec_call_withOutputs (nnn : Addr12) :
    MatchOutputs b ds (exec (.call nnn) s) (exec (.call nnn) (s.withOutputs b ds)) := by
  by_cases h : s.cfg.stackOverflow = .fault ∧ s.sp = stackDepth
  · rw [exec_call_of_full nnn h, exec_call_of_full (s := s.withOutputs b ds) nnn h]
    exact .next _
  · rw [exec_call_of_room nnn h, exec_call_of_room (s := s.withOutputs b ds) nnn h]
    exact .next _

theorem exec_ldVxK_withOutputs (x : Reg) : MatchOutputs b ds (exec (.ldVxK x) s) (exec (.ldVxK x) (s.withOutputs b ds)) := by
  cases h : s.waitedKey with
  | none =>
    rw [exec_ldVxK_of_none h, exec_ldVxK_of_none (s := s.withOutputs b ds) h]
    exact .next _
  | some k =>
    rw [exec_ldVxK_of_some h, exec_ldVxK_of_some (s := s.withOutputs b ds) h]
    exact .next _

/-- `SYS` and `LD ST, Vx` set an output; every other instruction does the same whatever the outputs are. -/
theorem exec_withOutputs {i : Instr} (hsys : ∀ nnn, i ≠ .sys nnn) (hst : ∀ x, i ≠ .ldStVx x) :
    MatchOutputs b ds (exec i s) (exec i (s.withOutputs b ds)) := by
  cases i
  case sys nnn => exact absurd rfl (hsys nnn)
  case ldStVx x => exact absurd rfl (hst x)
  case ret => exact exec_ret_withOutputs
  case call nnn => exact exec_call_withOutputs nnn
  case ldVxK x => exact exec_ldVxK_withOutputs x
  case seImm | sneImm | seReg | sneReg =>
    rw [exec, exec]
    exact ⟨_, rfl, congrArg _ (skipIf_withOutputs _)⟩
  case skp | sknp => exact .complete_map (isPressed s _) _ _ fun _ _ => skipIf_withOutputs _
  case orReg x y => exact ⟨_, rfl, congrArg _ (logicFlag_withOutputs (s := s.setV x (s.getV x ||| s.getV y)))⟩
  case andReg x y => exact ⟨_, rfl, congrArg _ (logicFlag_withOutputs (s := s.setV x (s.getV x &&& s.getV y)))⟩
  case xorReg x y => exact ⟨_, rfl, congrArg _ (logicFlag_withOutputs (s := s.setV x (s.getV x ^^^ s.getV y)))⟩
  case ldReg | jpV0 | rnd | ldFVx => exact .admitted _ _
  case drw => exact .complete_map (memRead s _ _) _ _ fun _ _ => rfl
  case ldBVx x =>
    have h := MatchOutputs.complete_memWrite (s := s) (b := b) (ds := ds) (indirect s) (bcdDigits (s.getV x)) id fun _ => rfl
    simp only [Except.map_id, id] at h
    exact h
  case ldMemVx x => exact .complete_memWrite _ _ _ fun t => advanceI_withOutputs x
  case ldVxMem x =>
    refine .complete_map (memRead s _ _) _ _ fun bs _ => ?_
    rw [loadRegs_withOutputs, advanceI_withOutputs]
  case cls | jp | ldImm | addImm | addReg | subReg | shr | subn | shl | ldI | ldVxDt | ldDtVx | addIVx =>
    exact .next _

/-- What changing the outputs of `s` does to a transaction that answers `t`: the same records are appended to the other
diagnostics, and ST is the other value or the one written. -/
def OutputsOnly (s t : State) (b : Byte) (ds : List Diag) (r : Host.Outcome State Fault Refusal) : Prop :=
  ∃ new b', t.diagOut = s.diagOut ++ new ∧ (b' = t.st ∨ b' = b ∧ t.st = s.st) ∧ r = .next (t.withOutputs b' (ds ++ new))

theorem OutputsOnly.of_unchanged {r : Host.Outcome State Fault Refusal} (hst : t.st = s.st) (hd : t.diagOut = s.diagOut)
    (hr : r = .next (t.withOutputs b ds)) : OutputsOnly s t b ds r :=
  ⟨[], b, by rw [hd, List.append_nil], .inr ⟨rfl, hst⟩, by rw [hr, List.append_nil]⟩

theorem exec_outputsOnly {i : Instr} (h : exec i s = .next t) : OutputsOnly s t b ds (exec i (s.withOutputs b ds)) := by
  by_cases hsys : ∃ nnn, i = .sys nnn
  · obtain ⟨nnn, rfl⟩ := hsys
    cases (exec_sys nnn s).symm.trans h
    exact ⟨_, b, rfl, .inr ⟨rfl, rfl⟩, rfl⟩
  by_cases hst : ∃ x, i = .ldStVx x
  · obtain ⟨x, rfl⟩ := hst
    cases (exec_ldStVx x s).symm.trans h
    exact ⟨[], _, (List.append_nil _).symm, .inl rfl, by rw [List.append_nil]; rfl⟩
  · obtain ⟨u, hu, hu'⟩ := exec_withOutputs (b := b) (ds := ds) (not_exists.mp hsys) (not_exists.mp hst)
    obtain rfl : u = t := Host.Outcome.next.inj (hu.symm.trans h)
    refine .of_unchanged (by_contra fun hne => ?_) (by_contra fun hne => ?_) hu'
    · exact hst (exec_writes_of_changed (p := .st) h hne).eq_ldStVx
    · exact hsys (exec_writes_of_changed (p := .diagOut) h hne).eq_sys

theorem step_outputsOnly (h : step s = .next t) : OutputsOnly s t b ds (step (s.withOutputs b ds)) := by
  obtain ⟨hs, ⟨hpast, rfl⟩ | ⟨w, hfits, hd, rfl⟩ | ⟨i, hfits, hd, hi⟩⟩ := step_cases h
  · exact .of_unchanged rfl rfl (step_of_fetch_past_memory (s := s.withOutputs b ds) hs hpast)
  · exact ⟨_, b, rfl, .inr ⟨rfl, rfl⟩, step_of_unmatched (s := s.withOutputs b ds) hs hfits hd⟩
  · rw [step_of_instr (s := s.withOutputs b ds) hs hfits hd]
    exact exec_outputsOnly (s := s.entry) hi

end

end Sys2Proof.Machine
end

section
open Sys2Proof Sys2Proof.Machine

/-- Settles O22: the step from other outputs, with the diagnostics those of `s`. -/
theorem soundTimerIsNeverRead : Obligations.SoundTimerIsNeverRead := by
  unfold Obligations.SoundTimerIsNeverRead
  intro s t b h
  obtain ⟨new, b', hd, hb, hr⟩ := step_outputsOnly (b := b) (ds := s.diagOut) h
  rw [← hd] at hr
  exact ⟨_, hr, rfl, hb.symm.imp And.left id⟩

/-- Settles O23: the step from other outputs, with the sound timer that of `s`. -/
theorem diagnosticsNeverAffectExecution : Obligations.DiagnosticsNeverAffectExecution := by
  unfold Obligations.DiagnosticsNeverAffectExecution
  intro s t ds h
  obtain ⟨new, b', hd, hb, hr⟩ := step_outputsOnly (b := s.st) (ds := ds) h
  obtain rfl : b' = t.st := hb.elim id fun ⟨hb, ht⟩ => hb.trans ht.symm
  exact ⟨new, hd, hr⟩

end

section
/-! Control flow and refusals (spec 40_control_flow R123-R133, 30_encoding R102): the words, and the branches of each body. -/

namespace Sys2Proof.Machine

/-- A number that the encoder writes for a well-formed instruction is a word of it. -/
theorem Encoded.of_encode {n : Nat} {i : Instr} (hwf : i.wellFormed = true) (hn : (encode i).toNat = n) : Encoded n i :=
  .of_decode hn (decode_encode hwf)

/-- The words of format FXYN whose low nibble is an operand, or is not examined. -/
theorem Encoded.of_formatFXYN_operand {op : Nib} {x y : Reg} {n : Nib} {i : Instr}
    (hd : decode (formatFXYN op x y n) = .instr i) :
    Encoded (op.toNat * 4096 + 256 * x.toNat + 16 * y.toNat + n.toNat) i :=
  .of_decode (by rw [formatFXYN_toNat]; omega) hd

/-- Decision D9: family 5 does not examine the low nibble. -/
theorem decode_formatFXYN_seReg (x y : Reg) (n : Nib) : decode (formatFXYN 0x5#4 x y n) = .instr (.seReg x y) := by
  simp [decode]

/-- Decision D9: family 9 does not examine the low nibble. -/
theorem decode_formatFXYN_sneReg (x y : Reg) (n : Nib) : decode (formatFXYN 0x9#4 x y n) = .instr (.sneReg x y) := by
  simp [decode]

section
variable {s : State} {i : Instr}

/-- R102, R287: what each of the four instructions does where the configuration refuses it. -/
theorem exec_refused_answers (hi : i.Refusable) (hc : ¬s.cfg.admitGkOps = true) :
    ∃ t, exec i s = .next t ∧ t.refused ≠ none ∧ t.pc = s.pc - 2#16 ∧ UnchangedBut (Part.among [.pc, .refused]) s t :=
  ⟨_, exec_of_refused hi (Bool.eq_false_iff.mpr hc), Option.some_ne_none _, rfl, (refuse_frame s _).among_pair⟩

theorem stack_jump_frame (s : State) (l : List Word) (a : Word) :
    UnchangedBut (Part.among [.pc, .stack]) s ({ s with stack := l }.jumpTo a) :=
  (((withStack_frame s l).or (jumpTo_frame _ a)).mono fun _ => Or.symm).among_pair

/-- R129: 12 bits plus 8 bits fit in 16, so the sum does not wrap. -/
theorem absolutePlusV0_toNat (nnn : Addr12) : (absolutePlusV0 s nnn).toNat = nnn.toNat + (s.getV 0#4).toNat := by
  have := nnn.isLt
  have := (s.getV 0#4).isLt
  rw [absolutePlusV0, BitVec.toNat_add, absolute_toNat, BitVec.toNat_setWidth]
  omega

theorem exec_jpV0_of_granted (h : s.cfg.admitGkOps = true) (nnn : Addr12) :
    exec (.jpV0 nnn) s = .next (s.jumpTo (absolutePlusV0 s nnn)) := admitted_of_true h _ _

/-- R130: `SYS` is any word of family 0 but the two that are other instructions. -/
theorem wellFormed_sys {nnn : Addr12} (hcls : nnn.toNat ≠ 0x0E0) (hret : nnn.toNat ≠ 0x0EE) :
    (Instr.sys nnn).wellFormed = true := by
  simp only [Instr.wellFormed, Bool.and_eq_true, bne_iff_ne, ne_eq, eq_iff_toNat]
  exact ⟨hcls, hret⟩

theorem encode_sys_toNat (nnn : Addr12) : (encode (.sys nnn)).toNat = nnn.toNat := by
  rw [encode, formatFA_toNat, BitVec.toNat_ofNat]
  omega

end

end Sys2Proof.Machine
end

section
open Sys2Proof Sys2Proof.Machine

/-- Settles O25: a full bounded stack raises; any other takes the advanced PC. -/
theorem callPushesOrOverflows : Obligations.CallPushesOrOverflows := by
  unfold Obligations.CallPushesOrOverflows
  intro nnn s
  refine ⟨.of_formatFA (decode_encode (i := .call nnn) rfl), ?_⟩
  split
  · next hfull => exact exec_call_of_full nnn hfull
  · next hroom =>
    exact ⟨_, exec_call_of_room nnn hroom, rfl, List.length_append, absolute_toNat nnn, stack_jump_frame s _ _⟩

/-- Settles O26: the last entry, or one of the two settings for an empty stack. -/
theorem returnPops : Obligations.ReturnPops := by
  unfold Obligations.ReturnPops
  refine ⟨.of_encode (i := .ret) rfl rfl, fun s => ⟨fun l a h => ?_, fun h hc => ?_, fun h hc => exec_ret_of_underflow h hc⟩⟩
  · refine ⟨_, exec_ret_of_append h, rfl, rfl, ?_, stack_jump_frame s _ _⟩
    rw [State.sp, h]
    exact List.length_append
  · exact ⟨_, exec_ret_of_pcZero h hc, rfl, by rw [State.jumpTo_sp, State.sp, h]; rfl, (jumpTo_frame s _).among_singleton⟩

/-- Settles O27: the call left the return address on top, and the return takes the top. -/
theorem callThenReturn : Obligations.CallThenReturn := by
  unfold Obligations.CallThenReturn
  intro nnn s t u hcall hrun hrunning hstack
  by_cases hfull : s.cfg.stackOverflow = .fault ∧ s.sp = stackDepth
  · cases (exec_call_of_full nnn hfull).symm.trans hcall
    cases hrun.trans hrunning
  · cases (exec_call_of_room nnn hfull).symm.trans hcall
    exact ⟨_, exec_ret_of_append hstack, rfl, rfl⟩

/-- Settles O29: each skip is `skipIf` on its own condition, for every low nibble of its word. -/
theorem skipOnRegisters : Obligations.SkipOnRegisters := by
  unfold Obligations.SkipOnRegisters
  intro x y n s
  refine ⟨.of_formatFXYN_operand (decode_formatFXYN_seReg x y n), .of_formatFXYN_operand (decode_formatFXYN_sneReg x y n),
    ⟨_, rfl, ?_, (skipIf_frame s _).among_singleton⟩, ⟨_, rfl, ?_, (skipIf_frame s _).among_singleton⟩⟩
  · simp only [State.skipIf_pc, beq_iff_eq]
  · simp only [State.skipIf_pc, bne_iff_ne, ne_eq, ite_not]

/-- Settles O30: the jump, where the configuration has it, to a sum that does not wrap. -/
theorem jumpPlusV0 : Obligations.JumpPlusV0 := by
  unfold Obligations.JumpPlusV0
  intro nnn s
  refine ⟨.of_formatFA (decode_encode (i := .jpV0 nnn) rfl), ?_⟩
  split
  · next hc => exact ⟨_, exec_jpV0_of_granted hc nnn, absolutePlusV0_toNat nnn, (jumpTo_frame s _).among_singleton⟩
  · next hc => exact exec_refused_answers (i := .jpV0 nnn) trivial hc

/-- Settles O31: the body of `SYS` records its own word, whose number is nnn. -/
theorem sysIsDiagnosedNoOp : Obligations.SysIsDiagnosedNoOp := by
  unfold Obligations.SysIsDiagnosedNoOp
  intro nnn s hcls hret
  have hword : encode (.sys nnn) = BitVec.ofNat 16 nnn.toNat := by
    rw [← encode_sys_toNat, BitVec.ofNat_toNat, BitVec.setWidth_eq]
  refine ⟨.of_encode (wellFormed_sys hcls hret) (encode_sys_toNat nnn), _, exec_sys nnn s, ?_, (diag_frame s _).among_singleton⟩
  rw [State.diag_diagOut, hword]
  rfl

end

section
/-! Arithmetic and logic (spec 41_alu R150-R163): the flag bytes as numbers, and VF by `logic_vf`. -/

namespace Sys2Proof.Machine

section
variable {s : State} {x : Reg}

theorem exec_ldReg_of_granted (h : s.cfg.admitGkOps = true) (x y : Reg) :
    exec (.ldReg x y) s = .next (s.setV x (s.getV y)) := admitted_of_true h _ _

theorem exec_rnd_of_granted (h : s.cfg.admitGkOps = true) (x : Reg) (nn : Byte) :
    exec (.rnd x nn) s = .next ({ s with draws := s.draws + 1 }.setV x (Config.draw8 s.draws &&& nn)) :=
  admitted_of_true h _ _

theorem draw_setV_frame (s : State) (x : Reg) (b : Byte) :
    UnchangedBut (Part.among [.v x, .draws]) s ({ s with draws := s.draws + 1 }.setV x b) :=
  (((withDraws_frame s _).or (setV_frame _ x b)).mono fun _ => Or.symm).among_pair

/-! ### `logic_vf` (R151, decision D6) -/

theorem State.logicFlag_of_zero (h : s.cfg.logicVf = .zero) : s.logicFlag = s.setV vf 0x00#8 := by
  rw [State.logicFlag, h]

theorem State.logicFlag_of_preserve (h : s.cfg.logicVf = .preserve) : s.logicFlag = s := by
  rw [State.logicFlag, h]

theorem State.logicFlag_of_any (h : s.cfg.logicVf = .any) :
    s.logicFlag = { s with draws := s.draws + 1 }.setV vf (Config.draw8 s.draws) := by
  rw [State.logicFlag, h]
  rfl

/-- The flag leaves a destination that is not VF. -/
theorem State.getV_logicFlag (s : State) (h : x ≠ vf) : s.logicFlag.getV x = s.getV x :=
  logicFlag_frame s (.v x) (by simpa using h)

/-- R155, R156, R157: the three operations are one update, by the byte whose bits are theirs. -/
theorem exec_logic {i : Instr} {y : Reg} {r : Byte}
    (h : i = .orReg x y ∧ (∀ k, r.getLsbD k = ((s.getV x).getLsbD k || (s.getV y).getLsbD k)) ∨
      i = .andReg x y ∧ (∀ k, r.getLsbD k = ((s.getV x).getLsbD k && (s.getV y).getLsbD k)) ∨
      i = .xorReg x y ∧ (∀ k, r.getLsbD k = ((s.getV x).getLsbD k != (s.getV y).getLsbD k))) :
    exec i s = .next (s.setV x r).logicFlag := by
  obtain ⟨rfl, hr⟩ | ⟨rfl, hr⟩ | ⟨rfl, hr⟩ := h
  · have hbits : r = s.getV x ||| s.getV y := BitVec.eq_of_getLsbD_eq fun k _ => by rw [hr, BitVec.getLsbD_or]
    rw [hbits]
    rfl
  · have hbits : r = s.getV x &&& s.getV y := BitVec.eq_of_getLsbD_eq fun k _ => by rw [hr, BitVec.getLsbD_and]
    rw [hbits]
    rfl
  · have hbits : r = s.getV x ^^^ s.getV y :=
      BitVec.eq_of_getLsbD_eq fun k _ => by rw [hr, BitVec.getLsbD_xor, Bool.bne_eq_xor]
    rw [hbits]
    rfl

/-! ### Carry and borrow (R158, R159, R161) -/

theorem flagByte_carryFlag_toNat (a b : Byte) :
    (flagByte (carryFlag a b)).toNat = if a.toNat + b.toNat > 255 then 1 else 0 := by
  simp only [flagByte_toNat, carryFlag, decide_eq_true_eq]

theorem flagByte_notBorrowFlag_toNat (a b : Byte) :
    (flagByte (notBorrowFlag a b)).toNat = if a.toNat ≥ b.toNat then 1 else 0 := by
  simp only [flagByte_toNat, notBorrowFlag, decide_eq_true_eq]

/-- The model's `trunc_8(a - b + 256)` is the difference mod 256. -/
theorem wrapped_difference (a b : Byte) :
    ((BitVec.ofNat 8 (a.toNat + 256 - b.toNat)).toNat : Int) = (a.toNat - b.toNat : Int) % 256 := by
  have := a.isLt
  have := b.isLt
  rw [BitVec.toNat_ofNat]
  omega

theorem setResultFlag_among (s : State) (x : Reg) (r : Byte) (c : Bool) :
    UnchangedBut (Part.among [.v x, .v vf]) s (s.setResultFlag x r c) :=
  (setResultFlag_frame s x r c).among_pair

end

end Sys2Proof.Machine
end

section
open Sys2Proof Sys2Proof.Machine

/-- Settles O33: the copy, where the configuration has it. -/
theorem copyRegister : Obligations.CopyRegister := by
  unfold Obligations.CopyRegister
  intro x y s
  refine ⟨.of_formatFXYN (decode_encode (i := .ldReg x y) rfl), ?_⟩
  split
  · next hc => exact ⟨_, exec_ldReg_of_granted hc x y, State.getV_setV_same s x _, (setV_frame s x _).among_singleton⟩
  · next hc => exact exec_refused_answers (i := .ldReg x y) trivial hc

/-- Settles O34: one update for the three operations, then VF by the three settings of `logic_vf`. -/
theorem logicOperations : Obligations.LogicOperations := by
  unfold Obligations.LogicOperations
  intro x y s i r h
  have hexec := exec_logic h
  have hframe : UnchangedBut (Part.among [.v x, .v vf, .draws]) s (s.setV x r).logicFlag :=
    (setV_logicFlag_frame s x r).mono fun _ hp => by simpa [Part.among] using hp
  refine ⟨?_, _, hexec, fun hx => ?_, ?_, hframe⟩
  · obtain ⟨rfl, -⟩ | ⟨rfl, -⟩ | ⟨rfl, -⟩ := h
    · exact .of_formatFXYN_operand (decode_encode (i := .orReg x y) rfl)
    · exact .of_formatFXYN_operand (decode_encode (i := .andReg x y) rfl)
    · exact .of_formatFXYN_operand (decode_encode (i := .xorReg x y) rfl)
  · rw [State.getV_logicFlag _ hx, State.getV_setV_same]
  · cases hc : s.cfg.logicVf with
    | zero =>
      rw [State.logicFlag_of_zero (s := s.setV x r) hc]
      exact ⟨by rw [State.getV_setV_same]; rfl, rfl⟩
    | preserve =>
      rw [State.logicFlag_of_preserve (s := s.setV x r) hc]
      exact ⟨State.getV_setV s x vf r, rfl⟩
    | any =>
      rw [State.logicFlag_of_any (s := s.setV x r) hc]
      exact ⟨State.getV_setV_same _ _ _, rfl⟩

/-- Settles O35: the sum to Vx, then the carry to VF. -/
theorem addSetsCarry : Obligations.AddSetsCarry := by
  unfold Obligations.AddSetsCarry
  intro x y s
  refine ⟨.of_formatFXYN (decode_encode (i := .addReg x y) rfl), _, rfl, fun hx => ?_, ?_, setResultFlag_among s x _ _⟩
  · rw [State.getV_setResultFlag_dest _ _ _ hx, BitVec.toNat_ofNat]
  · rw [State.getV_setResultFlag_vf, flagByte_carryFlag_toNat]

/-- Settles O36: each subtraction writes the wrapped difference to Vx, then not borrow to VF. -/
theorem subtractionsSetNotBorrow : Obligations.SubtractionsSetNotBorrow := by
  unfold Obligations.SubtractionsSetNotBorrow
  intro x y s
  refine ⟨.of_formatFXYN (decode_encode (i := .subReg x y) rfl), .of_formatFXYN (decode_encode (i := .subn x y) rfl),
    ⟨_, rfl, fun hx => ?_, ?_, setResultFlag_among s x _ _⟩, ⟨_, rfl, fun hx => ?_, ?_, setResultFlag_among s x _ _⟩⟩
  · rw [State.getV_setResultFlag_dest _ _ _ hx, wrapped_difference]
  · rw [State.getV_setResultFlag_vf, flagByte_notBorrowFlag_toNat]
  · rw [State.getV_setResultFlag_dest _ _ _ hx, wrapped_difference]
  · rw [State.getV_setResultFlag_vf, flagByte_notBorrowFlag_toNat]

/-- Settles O38: the masked draw, where the configuration has it. -/
theorem randomIsMaskedDraw : Obligations.RandomIsMaskedDraw := by
  unfold Obligations.RandomIsMaskedDraw
  intro x nn s
  refine ⟨.of_formatFXNN (decode_encode (i := .rnd x nn) rfl), ?_⟩
  split
  · next hc =>
    refine ⟨_, exec_rnd_of_granted hc x nn, fun k => ?_, fun hn => ?_, rfl, draw_setV_frame s x _⟩
    · rw [State.getV_setV_same, BitVec.getLsbD_and]
    · obtain rfl : nn = 0x00#8 := BitVec.eq_of_toNat_eq hn
      rw [State.getV_setV_same, BitVec.and_zero]
      rfl
  · next hc => exact exec_refused_answers (i := .rnd x nn) trivial hc

end

section
/-! The index register and the memory transfers (spec 42_index_memory R181-R186; 20_memory R62-R65, R75). -/

namespace Sys2Proof.Machine

section
variable {s : State} {x : Reg}

/-! ### I (R181, R182) -/

theorem exec_addIVx (x : Reg) (s : State) : exec (.addIVx x) s = .next (s.setI (indexPlus s x)) := rfl

theorem indexPlus_toNat (s : State) (x : Reg) : (indexPlus s x).toNat = (s.i.toNat + (s.getV x).toNat) % 65536 := by
  rw [indexPlus, BitVec.toNat_add, BitVec.toNat_setWidth_of_le (by decide)]

theorem exec_ldFVx_of_granted (h : s.cfg.admitGkOps = true) (x : Reg) :
    exec (.ldFVx x) s = .next (s.setI (glyphAddress s x)) := admitted_of_true h _ _

/-- R182: the font ends below 0x200, so the glyph's address does not wrap. -/
theorem glyphAddress_toNat (s : State) (x : Reg) :
    (glyphAddress s x).toNat = s.cfg.fontBase.val + 5 * ((s.getV x).toNat % 16) := by
  have hfont := s.cfg.fontBase.isLt
  have hnibble : (s.getV x &&& 0x0F#8).toNat = (s.getV x).toNat % 16 := by
    rw [BitVec.toNat_and]
    exact Nat.and_two_pow_sub_one_eq_mod _ 4
  rw [glyphAddress, BitVec.toNat_ofNat, hnibble]
  omega

/-! ### What storing bytes, loading registers and the increment of I leave alone -/

@[simp] theorem State.writeBytes_i (s : State) (a : Nat) (bs : List Byte) : (s.writeBytes a bs).i = s.i := by
  rw [State.writeBytes_eq]

@[simp] theorem State.writeBytes_cfg (s : State) (a : Nat) (bs : List Byte) : (s.writeBytes a bs).cfg = s.cfg := by
  rw [State.writeBytes_eq]

@[simp] theorem loadRegs_i (s : State) (j : Nat) (bs : List Byte) : (loadRegs s j bs).i = s.i := by rw [loadRegs_eq]

@[simp] theorem loadRegs_cfg (s : State) (j : Nat) (bs : List Byte) : (loadRegs s j bs).cfg = s.cfg := by rw [loadRegs_eq]

@[simp] theorem advanceI_readByte (s : State) (x : Reg) (a : Nat) : (advanceI s x).readByte a = s.readByte a :=
  advanceI_frame s x (.mem a) (by simp)

@[simp] theorem advanceI_getV (s : State) (x r : Reg) : (advanceI s x).getV r = s.getV r :=
  advanceI_frame s x (.v r) (by simp)

/-- R186: I after a transfer, as a number. -/
theorem advanceI_i_toNat (s : State) (x : Reg) :
    (advanceI s x).i.toNat = if s.cfg.ldstIncI = true then (s.i.toNat + x.toNat + 1) % 65536 else s.i.toNat := by
  rw [advanceI_i]
  split
  · rw [BitVec.toNat_ofNat, Nat.add_assoc]
  · rfl

/-! ### `Fx33` (R183) -/

theorem exec_ldBVx_of_fits (x : Reg) (h : s.i.toNat + 3 ≤ memSize) :
    exec (.ldBVx x) s = .next (s.writeBytes s.i.toNat (bcdDigits (s.getV x))) := by
  rw [exec, execLdBVx, show memWrite s (indirect s) (bcdDigits (s.getV x)) = _ from memWrite_ok h]
  rfl

theorem exec_ldBVx_of_past (x : Reg) (h : memSize < s.i.toNat + 3) :
    exec (.ldBVx x) s = .next (s.raiseAt s.fpc (.memOutOfRange s.i.toNat 3)) := by
  rw [exec, execLdBVx, show memWrite s (indirect s) (bcdDigits (s.getV x)) = _ from memWrite_error h]
  rfl

/-- The digit at each place, as a number; a byte has at most three. -/
theorem bcdDigits_toNat (b : Byte) : (bcdDigits b).map BitVec.toNat = [b.toNat / 100, b.toNat / 10 % 10, b.toNat % 10] := by
  have := b.isLt
  simp only [bcdDigits, List.map_cons, List.map_nil, BitVec.toNat_ofNat, List.cons.injEq, and_true]
  omega

theorem readByte_writeBytes_toNat (s : State) (a : Nat) (bs : List Byte) {j n : Nat} (h : (bs.map BitVec.toNat)[j]? = some n) :
    ((s.writeBytes a bs).readByte (a + j)).toNat = n := by
  obtain ⟨b, hb, rfl⟩ := Option.map_eq_some_iff.mp (List.getElem?_map .. ▸ h)
  obtain ⟨hj, rfl⟩ := List.getElem?_eq_some_iff.mp hb
  rw [State.readByte_writeBytes_inside s a bs hj]

/-! ### `Fx55` (R184) -/

theorem exec_ldMemVx_of_fits (h : s.i.toNat + (x.toNat + 1) ≤ memSize) :
    exec (.ldMemVx x) s = .next (advanceI (s.writeBytes s.i.toNat (dumpBytes s x)) x) := by
  rw [← dumpBytes_length s x] at h
  rw [exec, execLdMemVx, show memWrite s (indirect s) (dumpBytes s x) = _ from memWrite_ok h]
  rfl

theorem exec_ldMemVx_of_past (h : memSize < s.i.toNat + (x.toNat + 1)) :
    exec (.ldMemVx x) s = .next (s.raiseAt s.fpc (.memOutOfRange s.i.toNat (x.toNat + 1))) := by
  rw [← dumpBytes_length s x] at h ⊢
  rw [exec, execLdMemVx, show memWrite s (indirect s) (dumpBytes s x) = _ from memWrite_error h]
  rfl

/-- R184: the byte a dump leaves for each register. -/
theorem readByte_dump (s : State) (x : Reg) {r : Reg} (h : r.toNat ≤ x.toNat) :
    (advanceI (s.writeBytes s.i.toNat (dumpBytes s x)) x).readByte (s.i.toNat + r.toNat) = s.getV r := by
  have hr : r.toNat < (dumpBytes s x).length := by
    rw [dumpBytes_length]
    omega
  rw [advanceI_readByte, State.readByte_writeBytes_inside _ _ _ hr, dumpBytes_getElem, BitVec.ofNat_toNat, BitVec.setWidth_eq]

theorem dump_frame (s : State) (x : Reg) :
    UnchangedBut (fun p => p = .i ∨ Part.inBlock s.i.toNat (x.toNat + 1) p) s
      (advanceI (s.writeBytes s.i.toNat (dumpBytes s x)) x) := by
  rw [← dumpBytes_length s x]
  exact ((writeBytes_frame s _ _).or (advanceI_frame _ x)).mono fun _ => Or.symm

/-! ### `Fx65` (R185) -/

theorem exec_ldVxMem_of_fits (h : s.i.toNat + (x.toNat + 1) ≤ memSize) :
    ∃ bs, memRead s s.i.toNat (x.toNat + 1) = .ok bs ∧ exec (.ldVxMem x) s = .next (advanceI (loadRegs s 0 bs) x) :=
  ⟨_, memRead_ok h, by
    rw [exec, execLdVxMem, show memRead s (indirect s) (transferLen x) = _ from memRead_ok h]
    rfl⟩

theorem exec_ldVxMem_of_past (h : memSize < s.i.toNat + (x.toNat + 1)) :
    exec (.ldVxMem x) s = .next (s.raiseAt s.fpc (.memOutOfRange s.i.toNat (x.toNat + 1))) := by
  rw [exec, execLdVxMem, show memRead s (indirect s) (transferLen x) = _ from memRead_error h]
  rfl

/-- R185: the register a load leaves for each byte it read. -/
theorem getV_loadRegs_of_memRead {a : Nat} {bs : List Byte} (h : memRead s a (x.toNat + 1) = .ok bs) {r : Reg}
    (hr : r.toNat ≤ x.toNat) : (loadRegs s 0 bs).getV r = s.readByte (a + r.toNat) := by
  obtain ⟨-, hlen, hget⟩ := memRead_cases h
  have hx := x.isLt
  rw [loadRegs_at s 0 bs r r.toNat (by omega) (Nat.zero_add _).symm (by omega), hget]

/-! ### Blocks and fetches (R62, R65, R75) -/

theorem memRead_writeBytes (s : State) (a : Nat) (bs : List Byte) (h : a + bs.length ≤ memSize) :
    memRead (s.writeBytes a bs) a bs.length = .ok bs := by
  rw [memRead_ok h]
  refine congrArg Except.ok (List.ext_getElem (by simp) fun j hj hj' => ?_)
  rw [List.getElem_map, List.getElem_range, State.readByte_writeBytes_inside s a bs hj']

theorem Encoded.decode_of_toNat {n : Nat} {i : Instr} (h : Encoded n i) {w : Word} (hw : w.toNat = n) :
    decode w = .instr i := by
  subst hw
  have hd := h.2
  rwa [BitVec.ofNat_toNat, BitVec.setWidth_eq] at hd

end

end Sys2Proof.Machine
end

section
open Sys2Proof Sys2Proof.Machine

/-- Settles O40: an update of I alone, by the 16-bit sum. -/
theorem indexAdd : Obligations.IndexAdd := by
  unfold Obligations.IndexAdd
  intro x s
  exact ⟨.of_formatFX (decode_encode (i := .addIVx x) rfl), _, exec_addIVx x s, indexPlus_toNat s x,
    (setI_frame s _).among_singleton⟩

/-- Settles O41: an update of I alone, where the configuration has it, to an address that does not wrap. -/
theorem fontAddressOfDigit : Obligations.FontAddressOfDigit := by
  unfold Obligations.FontAddressOfDigit
  intro x s
  refine ⟨.of_formatFX (decode_encode (i := .ldFVx x) rfl), ?_⟩
  split
  · next hc => exact ⟨_, exec_ldFVx_of_granted hc x, glyphAddress_toNat s x, (setI_frame s _).among_singleton⟩
  · next hc => exact exec_refused_answers (i := .ldFVx x) trivial hc

/-- Settles O42: the three digits are the block stored, or the check of the block raises. -/
theorem decimalDigitsStored : Obligations.DecimalDigitsStored := by
  unfold Obligations.DecimalDigitsStored
  intro x s
  refine ⟨.of_formatFX (decode_encode (i := .ldBVx x) rfl), ?_⟩
  split
  · next hfits =>
    have hlt := (s.getV x).isLt
    have hdigits := bcdDigits_toNat (s.getV x)
    refine ⟨_, exec_ldBVx_of_fits x hfits,
      ⟨(s.getV x).toNat / 100, (s.getV x).toNat / 10 % 10, (s.getV x).toNat % 10, ?_, ?_, ?_, ?_⟩,
      writeBytes_frame s _ (bcdDigits (s.getV x))⟩
    · exact readByte_writeBytes_toNat s _ _ (j := 0) (by rw [hdigits]; rfl)
    · exact readByte_writeBytes_toNat s _ _ (j := 1) (by rw [hdigits]; rfl)
    · exact readByte_writeBytes_toNat s _ _ (j := 2) (by rw [hdigits]; rfl)
    · omega
  · next hpast => exact exec_ldBVx_of_past x (Nat.lt_of_not_le hpast)

/-- Settles O43: the registers are the block stored, or the check of the block raises. -/
theorem registerDump : Obligations.RegisterDump := by
  unfold Obligations.RegisterDump
  intro x s
  refine ⟨.of_formatFX (decode_encode (i := .ldMemVx x) rfl), ?_⟩
  split
  · next hfits =>
    refine ⟨_, exec_ldMemVx_of_fits hfits, fun _ hr => readByte_dump s x hr, ?_, dump_frame s x⟩
    rw [advanceI_i_toNat, State.writeBytes_cfg, State.writeBytes_i]
  · next hpast => exact exec_ldMemVx_of_past (Nat.lt_of_not_le hpast)

/-- Settles O44: the registers are loaded from the block read, or the check of the block raises. -/
theorem registerLoadFromMemory : Obligations.RegisterLoadFromMemory := by
  unfold Obligations.RegisterLoadFromMemory
  intro x s
  refine ⟨.of_formatFX (decode_encode (i := .ldVxMem x) rfl), ?_⟩
  split
  · next hfits =>
    obtain ⟨bs, hbs, hexec⟩ := exec_ldVxMem_of_fits hfits
    refine ⟨_, hexec, fun r hr => ?_, ?_, ?_⟩
    · rw [advanceI_getV, getV_loadRegs_of_memRead hbs hr]
    · rw [advanceI_i_toNat, loadRegs_cfg, loadRegs_i]
    · exact ((loadRegs_frame_of_memRead hbs).or (advanceI_frame _ x)).mono fun _ => Or.symm
  · next hpast => exact exec_ldVxMem_of_past (Nat.lt_of_not_le hpast)

/-- Settles O45: both check the whole block first. -/
theorem blockWriteThenRead : Obligations.BlockWriteThenRead := by
  unfold Obligations.BlockWriteThenRead
  intro s a bs
  split
  · next hfits => exact ⟨_, memWrite_ok hfits, memRead_writeBytes s a bs hfits, writeBytes_frame s a bs⟩
  · next hpast => exact ⟨memWrite_error (Nat.lt_of_not_le hpast), memRead_error (Nat.lt_of_not_le hpast)⟩

/-- Settles O46: the fetch reads the bytes the dump left for V0 and V1. -/
theorem storeIsFetchedByNextStep : Obligations.StoreIsFetchedByNextStep := by
  unfold Obligations.StoreIsFetchedByNextStep
  intro x s t i hx hfits hs hexec henc
  cases (exec_ldMemVx_of_fits hfits).symm.trans hexec
  have hhi := readByte_dump s x (r := 0#4) (Nat.zero_le _)
  have hlo := readByte_dump s x (r := 1#4) hx
  have hdone := (Completes.writeBytes s s.i.toNat (dumpBytes s x)).trans (Completes.advanceI _ x)
  have hsafe : State.Safe _ := ⟨hdone.run.trans hs.1, hdone.refused.trans hs.2⟩
  have hroom : s.i.toNat + 2 ≤ memSize := Nat.le_trans (Nat.add_le_add_left (Nat.succ_le_succ hx) _) hfits
  set u := advanceI (s.writeBytes s.i.toNat (dumpBytes s x)) x
  refine step_of_instr (s := { u with pc := s.i }) hsafe hroom (henc.decode_of_toNat ((wordOfBytes_toNat _ _).trans ?_))
  rw [← hhi, ← hlo]
  rfl

end

section
/-! Drawing (spec 43_display R213-R216): the sprite in memory, the pixels it covers, and the same draw made twice. -/

namespace Sys2Proof.Machine

section
variable {s t : State} {x y : Reg} {n : Nib} {sprite : List Byte} {cx : Fin 64} {cy : Fin 32}

theorem exec_drw_of_memRead (h : memRead s s.i.toNat n.toNat = .ok sprite) :
    exec (.drw x y n) s = .next (s.setCanvas (drawSprite s x y sprite)) := by
  rw [exec, execDrw, indirect, h]
  rfl

theorem exec_drw_of_past (h : memSize < s.i.toNat + n.toNat) :
    exec (.drw x y n) s = .next (s.raiseAt s.fpc (.memOutOfRange s.i.toNat n.toNat)) := by
  rw [exec, execDrw, indirect, memRead_error h]
  rfl

/-- R215: bit index 0 is the most significant. -/
theorem spriteBit_eq_true_iff (b : Byte) (i : Nat) : spriteBit b i = true ↔ b.toNat / 2 ^ (7 - i) % 2 = 1 := by
  rw [spriteBit, ← BitVec.testBit_toNat, Nat.testBit_eq_decide_div_mod_eq, decide_eq_true_eq]

/-- R213: the pixels that the sprite at I covers are the coordinates of its cells with a 1 bit. -/
theorem mem_spriteCells_iff_covers (h : memRead s s.i.toNat n.toNat = .ok sprite) (px py : Byte) :
    ((cx, cy), true) ∈ spriteCells px py 0 sprite ↔ Covers s px.toNat py.toNat n.toNat cx cy := by
  obtain ⟨-, hlen, hget⟩ := memRead_cases h
  rw [mem_spriteCells]
  simp only [Prod.mk.injEq, Nat.zero_add, spriteColumn, spriteRow, Fin.ext_iff, Fin.val_ofNat]
  constructor
  · rintro ⟨j, i, hj, hi, ⟨hx, hy⟩, hbit⟩
    refine ⟨j, i, hlen ▸ hj, hi, hx.symm, hy.symm, ?_⟩
    rw [← hget j hj]
    exact (spriteBit_eq_true_iff _ i).mp hbit.symm
  · rintro ⟨j, i, hj, hi, hx, hy, hbit⟩
    have hj : j < sprite.length := hlen.symm ▸ hj
    refine ⟨j, i, hj, hi, ⟨hx.symm, hy.symm⟩, ?_⟩
    rw [← hget j hj] at hbit
    exact ((spriteBit_eq_true_iff _ i).mpr hbit).symm

/-- R94: a sprite has at most 15 rows, so no row wraps onto another. -/
theorem sprite_length_le (h : memRead s s.i.toNat n.toNat = .ok sprite) : sprite.length ≤ 32 := by
  obtain ⟨-, hlen, -⟩ := memRead_cases h
  have := n.isLt
  omega

@[simp] theorem setCanvas_fb (s : State) (c : Canvas) : (s.setCanvas c).fb = c.fb := rfl

/-- R214: VF after a draw. -/
theorem setCanvas_vf_toNat (s : State) (c : Canvas) :
    ((s.setCanvas c).getV vf).toNat = if c.collision = true then 1 else 0 := by
  rw [State.setCanvas, State.setFlag, State.getV_setV_same, flagByte_toNat]

/-- R214: a collision is a covered pixel that was set. -/
theorem draw_collision_iff (h : memRead s s.i.toNat n.toNat = .ok sprite) :
    (drawSprite s x y sprite).collision = true ↔
      ∃ cx cy, Covers s (s.getV x).toNat (s.getV y).toNat n.toNat cx cy ∧ getPixel s.fb cx cy = true := by
  rw [drawSprite_collision s x y sprite (sprite_length_le h)]
  simp only [mem_spriteCells_iff_covers h]

/-- R213: a pixel changes exactly where the sprite covers it. -/
theorem draw_changes_iff (h : memRead s s.i.toNat n.toNat = .ok sprite) :
    getPixel (drawSprite s x y sprite).fb cx cy ≠ getPixel s.fb cx cy ↔
      Covers s (s.getV x).toNat (s.getV y).toNat n.toNat cx cy := by
  rw [← mem_spriteCells_iff_covers h, getPixel_drawSprite s x y sprite (sprite_length_le h)]
  split
  · next hin => simp [hin]
  · next hout => simp [hout]

/-- After a draw the sprite, its position and its address are the same, unless its position is in VF (D8). -/
theorem memRead_after_draw (h : memRead s s.i.toNat n.toNat = .ok sprite) (c : Canvas) :
    memRead (s.setCanvas c) (s.setCanvas c).i.toNat n.toNat = .ok sprite := h

/-- W5: the second of two equal draws inverts the same pixels back. -/
theorem draw_twice_fb (h : memRead s s.i.toNat n.toNat = .ok sprite) (ht : t = s.setCanvas (drawSprite s x y sprite))
    (hx : t.getV x = s.getV x) (hy : t.getV y = s.getV y) : (drawSprite t x y sprite).fb = s.fb := by
  refine frameBuffer_eq_of_pixels fun cx cy => ?_
  have hlen := sprite_length_le h
  rw [getPixel_drawSprite t x y sprite hlen, hx, hy, ht, setCanvas_fb, getPixel_drawSprite s x y sprite hlen]
  split
  · rw [Bool.not_not]
  · rfl

end

end Sys2Proof.Machine
end

section
open Sys2Proof Sys2Proof.Machine

/-- Settles O48: the cells of the sprite are the covered pixels, and plotting them is what the body does. -/
theorem drawInvertsCoveredPixels : Obligations.DrawInvertsCoveredPixels := by
  unfold Obligations.DrawInvertsCoveredPixels
  intro x y n s
  refine ⟨.of_formatFXYN_operand (decode_encode (i := .drw x y n) rfl), ?_⟩
  split
  · next hfits =>
    obtain ⟨sprite, hread⟩ : ∃ sprite, memRead s s.i.toNat n.toNat = .ok sprite := ⟨_, memRead_ok hfits⟩
    have hcollision := draw_collision_iff (x := x) (y := y) hread
    refine ⟨_, exec_drw_of_memRead hread, fun cx cy => draw_changes_iff hread, fun hset => ?_, fun hclear => ?_,
      setCanvas_frame s _⟩
    · rw [setCanvas_vf_toNat, if_pos (hcollision.mpr hset)]
    · rw [setCanvas_vf_toNat, if_neg]
      intro hc
      obtain ⟨cx, cy, hcovers, hset⟩ := hcollision.mp hc
      cases (hclear cx cy hcovers).symm.trans hset
  · next hpast => exact exec_drw_of_past (Nat.lt_of_not_le hpast)

/-- Settles O49: the second draw reads the same sprite at the same place, and its collisions are the pixels the first set. -/
theorem drawTwiceRestores : Obligations.DrawTwiceRestores := by
  unfold Obligations.DrawTwiceRestores
  intro x y n s t hx hy hfits hexec
  obtain ⟨sprite, hread⟩ : ∃ sprite, memRead s s.i.toNat n.toNat = .ok sprite := ⟨_, memRead_ok hfits⟩
  have ht : t = s.setCanvas (drawSprite s x y sprite) := Host.Outcome.next.inj (hexec.symm.trans (exec_drw_of_memRead hread))
  have hvx : t.getV x = s.getV x := ht ▸ setCanvas_frame s _ (.v x) (by simp [Part.isPixel, hx])
  have hvy : t.getV y = s.getV y := ht ▸ setCanvas_frame s _ (.v y) (by simp [Part.isPixel, hy])
  have hread' : memRead t t.i.toNat n.toNat = .ok sprite := ht ▸ memRead_after_draw hread _
  refine ⟨_, exec_drw_of_memRead hread', draw_twice_fb hread ht hvx hvy, ?_⟩
  have hcollision : (drawSprite t x y sprite).collision = true ↔
      ∃ cx cy, getPixel s.fb cx cy = false ∧ getPixel t.fb cx cy = true := by
    rw [draw_collision_iff hread']
    refine exists_congr fun cx => exists_congr fun cy => and_congr_left fun hset => ?_
    rw [← draw_changes_iff hread', draw_twice_fb hread ht hvx hvy, hset, ne_eq, Bool.not_eq_true]
  rw [setCanvas_vf_toNat, ← hcollision]
  simp

end

section
/-! Keys, the key wait and the tick (spec 44_input_timers R240-R251). -/

namespace Sys2Proof.Machine

section
variable {s : State} {x : Reg} {k : Key}

/-! ### The key skips (R242, R248, R249) -/

theorem isPressed_of_key (h : k.toNat = (s.getV x).toNat) : isPressed s (s.getV x) = .ok (s.getKey k) := by
  have hk := k.isLt
  have hkey : (s.getV x).setWidth 4 = k := by
    apply BitVec.eq_of_toNat_eq
    rw [BitVec.toNat_setWidth]
    omega
  rw [isPressed_ok (by omega), hkey]

theorem exec_skp_of_key (h : k.toNat = (s.getV x).toNat) : exec (.skp x) s = .next (s.skipIf (s.getKey k)) := by
  rw [exec, execSkp, isPressed_of_key h]
  rfl

theorem exec_sknp_of_key (h : k.toNat = (s.getV x).toNat) : exec (.sknp x) s = .next (s.skipIf (!s.getKey k)) := by
  rw [exec, execSknp, isPressed_of_key h]
  rfl

theorem exec_skp_of_invalid (h : 0x0F < (s.getV x).toNat) :
    exec (.skp x) s = .next (s.raiseAt s.fpc (.invalidKey (s.getV x))) := by
  rw [exec, execSkp, isPressed_error h]
  rfl

theorem exec_sknp_of_invalid (h : 0x0F < (s.getV x).toNat) :
    exec (.sknp x) s = .next (s.raiseAt s.fpc (.invalidKey (s.getV x))) := by
  rw [exec, execSknp, isPressed_error h]
  rfl

/-! ### Key events (R240, R241) -/

theorem keyPress_of_safe (h : s.Safe) (k : Key) : keyPress k s = .next (s.setKey k true) := whenEnabled_safe h _

theorem keyRelease_of_safe (h : s.Safe) (k : Key) : keyRelease k s = .next (releaseKey k s) := whenEnabled_safe h _

@[simp] theorem State.getKey_setKey_same (s : State) (k : Key) (b : Bool) : (s.setKey k b).getKey k = b := by
  rw [State.getKey_setKey, if_pos rfl]

/-- R241: the release of a pressed key resolves an armed wait. -/
theorem releaseKey_of_waiting (ha : s.waitArmed = true) (hk : s.getKey k = true) :
    releaseKey k s = { s.setKey k false with waitedKey := some k, waitArmed := false } := by
  obtain ⟨-, -, h⟩ | ⟨hn, -⟩ := releaseKey_cases k s
  · exact h
  · exact absurd ⟨ha, hk⟩ hn

theorem releaseKey_of_idle (h : ¬(s.waitArmed = true ∧ s.getKey k = true)) : releaseKey k s = s.setKey k false := by
  obtain ⟨ha, hk, -⟩ | ⟨-, hr⟩ := releaseKey_cases k s
  · exact absurd ⟨ha, hk⟩ h
  · exact hr

theorem getKey_releaseKey (k : Key) (s : State) : (releaseKey k s).getKey k = false := by
  obtain ⟨-, -, h⟩ | ⟨-, h⟩ := releaseKey_cases k s <;> rw [h] <;> exact State.getKey_setKey_same s k false

/-! ### The key wait (R251) -/

theorem key_setWidth_toNat (k : Key) : (k.setWidth 8 : Byte).toNat = k.toNat := BitVec.toNat_setWidth_of_le (by decide)

/-- The step of `LD Vx, K` with no key there leaves PC on the instruction. -/
theorem step_of_wait (hs : s.Safe) (hfits : s.pc.toNat + 2 ≤ memSize) (hd : decode (wordAt s s.pc.toNat) = .instr (.ldVxK x))
    (hk : s.waitedKey = none) : step s = .next (armWait (s.entry.jumpTo s.pc)) := by
  have hpc : s.entry.pc - 2#16 = s.pc := s.entry_fpc
  rw [step_of_instr hs hfits hd, exec_ldVxK_of_none (s := s.entry) hk, hpc]

/-- The step of `LD Vx, K` with a key there takes it. -/
theorem step_of_waited (hs : s.Safe) (hfits : s.pc.toNat + 2 ≤ memSize) (hd : decode (wordAt s s.pc.toNat) = .instr (.ldVxK x))
    (hk : s.waitedKey = some k) :
    step s = .next { s.entry.setV x (k.setWidth 8) with waitArmed := false, waitedKey := none } := by
  rw [step_of_instr hs hfits hd, exec_ldVxK_of_some (s := s.entry) hk]

theorem transactAll_cons {e : Transaction} {es : List Transaction} {s t : State} (h : transact e s = .next t) :
    transactAll (e :: es) s = transactAll es t := by
  rw [transactAll, h]

theorem UnchangedBut.safe {P : Part → Prop} {t : State} (h : UnchangedBut P s t) (hs : s.Safe) (hrun : ¬P .run)
    (hmark : ¬P .refused) : t.Safe :=
  ⟨(h .run hrun).trans hs.1, (h .refused hmark).trans hs.2⟩

theorem UnchangedBut.wordAt {P : Part → Prop} {t : State} (h : UnchangedBut P s t) (hmem : ∀ a, ¬P (.mem a)) (a : Nat) :
    Machine.wordAt t a = Machine.wordAt s a :=
  congrArg₂ wordOfBytes (h (.mem a) (hmem a)) (h (.mem (a + 1)) (hmem (a + 1)))

/-- The wait leaves PC where the step found it. -/
theorem wait_frame (s : State) : UnchangedBut (Part.among [.waitArmed, .stepped]) s (armWait (s.entry.jumpTo s.pc)) := by
  intro p hp
  by_cases hpc : p = .pc
  · subst hpc
    rfl
  · refine ((entry_frame s).or ((jumpTo_frame _ s.pc).or (armWait_frame _))) p fun h => hp ?_
    simp only [Part.among, List.mem_cons, List.not_mem_nil, or_false]
    tauto

/-- R240, R251: step, then press: the block waits at the instruction, with the key down. -/
theorem exists_wait_press (hs : s.Safe) (hfits : s.pc.toNat + 2 ≤ memSize)
    (hd : decode (wordAt s s.pc.toNat) = .instr (.ldVxK x)) (hk : s.waitedKey = none) (k : Key) :
    ∃ u, (∀ es, transactAll (.step :: .keyPress k :: es) s = transactAll es u) ∧ u.waitArmed = true ∧ u.getKey k = true ∧
      UnchangedBut (Part.among [.waitArmed, .stepped, .key k]) s u := by
  have hwait : (armWait (s.entry.jumpTo s.pc)).Safe := (wait_frame s).safe hs (by simp [Part.among]) (by simp [Part.among])
  refine ⟨_, fun es => ?_, rfl, State.getKey_setKey_same _ k true,
    ((wait_frame s).or (setKey_frame _ k true)).mono fun p hp => ?_⟩
  · rw [transactAll_cons (e := .step) (step_of_wait hs hfits hd hk)]
    exact transactAll_cons (keyPress_of_safe hwait k)
  · simpa [Part.among, or_assoc] using hp

/-- R241: the release of the pressed key resolves the wait. -/
theorem exists_release (hs : s.Safe) (ha : s.waitArmed = true) (hk : s.getKey k = true) :
    ∃ u, keyRelease k s = .next u ∧ u.waitedKey = some k ∧ u.getKey k = false ∧
      UnchangedBut (Part.among [.key k, .waitArmed, .waitedKey]) s u := by
  refine ⟨_, keyRelease_of_safe hs k, ?_, getKey_releaseKey k s,
    (releaseKey_frame k s).mono fun p hp => by simpa [Part.among] using hp⟩
  rw [releaseKey_of_waiting ha hk]

/-- R251: the step that finds the key takes it and goes on. -/
theorem exists_take (hs : s.Safe) (hfits : s.pc.toNat + 2 ≤ memSize)
    (hd : decode (wordAt s s.pc.toNat) = .instr (.ldVxK x)) (hk : s.waitedKey = some k) :
    ∃ t, step s = .next t ∧ t.getV x = k.setWidth 8 ∧ t.pc.toNat = s.pc.toNat + 2 ∧ t.waitArmed = false ∧ t.waitedKey = none ∧
      UnchangedBut (Part.among [.v x, .pc, .waitArmed, .waitedKey, .stepped]) s t := by
  refine ⟨_, step_of_waited hs hfits hd hk, State.getV_setV_same s.entry x _, State.entry_pc_toNat hfits, rfl, rfl,
    ((entry_frame s).or ((setV_frame _ x _).or (withLatch_frame _ _ _))).mono fun p hp => ?_⟩
  simp only [Part.among, List.mem_cons, List.not_mem_nil, or_false]
  tauto

/-! ### The tick (R250) -/

theorem decrementTimer_toNat (b : Byte) : (decrementTimer b).toNat = b.toNat - 1 := by
  unfold decrementTimer
  split
  · next h => exact BitVec.toNat_sub_of_le (BitVec.le_def.mpr h)
  · omega

end

end Sys2Proof.Machine
end

section
open Sys2Proof Sys2Proof.Machine

/-- Settles O50: a key code skips on its key, any other value raises. -/
theorem keySkips : Obligations.KeySkips := by
  unfold Obligations.KeySkips
  intro x s
  refine ⟨.of_formatFX (decode_encode (i := .skp x) rfl), .of_formatFX (decode_encode (i := .sknp x) rfl),
    fun k hk => ⟨⟨_, exec_skp_of_key hk, State.skipIf_pc s _, (skipIf_frame s _).among_singleton⟩,
      ⟨_, exec_sknp_of_key hk, ?_, (skipIf_frame s _).among_singleton⟩⟩,
    fun h => ⟨exec_skp_of_invalid h, exec_sknp_of_invalid h⟩⟩
  rw [State.skipIf_pc]
  cases s.getKey k <;> rfl

/-- Settles O51: the two branches of the body, by whether a key is there. -/
theorem keyWait : Obligations.KeyWait := by
  unfold Obligations.KeyWait
  intro x s
  refine ⟨.of_formatFX (decode_encode (i := .ldVxK x) rfl), fun k hk => ?_, fun hk => ?_⟩
  · refine ⟨_, exec_ldVxK_of_some hk x, ?_, rfl, rfl, ((setV_frame s x _).or (withLatch_frame _ _ _)).mono fun p hp => ?_⟩
    · exact (congrArg BitVec.toNat (State.getV_setV_same s x _)).trans (key_setWidth_toNat k)
    · simpa [Part.among] using hp
  · exact ⟨_, exec_ldVxK_of_none hk x, rfl, hk, BitVec.sub_add_cancel _ _, ((jumpTo_frame s _).or (armWait_frame _)).among_pair⟩

/-- Settles O52: the four transactions one after another; the second step fetches the same word. -/
theorem keyWaitResolvedByRelease : Obligations.KeyWaitResolvedByRelease := by
  unfold Obligations.KeyWaitResolvedByRelease
  intro x k s hs hfits hd hk
  obtain ⟨u, hu, huarmed, hukey, huframe⟩ := exists_wait_press hs hfits hd hk k
  have husafe : u.Safe := huframe.safe hs (by simp [Part.among]) (by simp [Part.among])
  have hupc : u.pc = s.pc := huframe .pc (by simp [Part.among])
  obtain ⟨v, hv, hvwaited, hvkey, hvframe⟩ := exists_release husafe huarmed hukey
  have hvsafe : v.Safe := hvframe.safe husafe (by simp [Part.among]) (by simp [Part.among])
  have hvpc : v.pc = s.pc := (hvframe .pc (by simp [Part.among])).trans hupc
  have hsv := huframe.or hvframe
  have hvd : decode (wordAt v v.pc.toNat) = .instr (.ldVxK x) := by
    rw [hvpc, hsv.wordAt (by simp [Part.among])]
    exact hd
  obtain ⟨t, ht, htx, htpc, htarmed, htwaited, htframe⟩ := exists_take hvsafe (by rw [hvpc]; exact hfits) hvd hvwaited
  refine ⟨⟨u, hu [], hupc, huarmed, (huframe .waitedKey (by simp [Part.among])).trans hk⟩, t, ?_, ?_, ?_, htarmed, htwaited, ?_,
    fun p hp => ?_⟩
  · rw [hu, transactAll_cons (e := .keyRelease k) hv]
    exact transactAll_cons (e := .step) ht
  · rw [htx, key_setWidth_toNat]
  · rw [htpc, hvpc]
  · exact (htframe (.key k) (by simp [Part.among])).trans hvkey
  · by_cases hw : p = .waitedKey
    · subst hw
      exact htwaited.trans hk.symm
    · refine (hsv.or htframe) p fun h => ?_
      simp only [Part.among, List.mem_cons, List.not_mem_nil, or_false] at h hp
      tauto

/-- Settles O54: a press sets the key; a release clears it, and resolves the wait in the one case. -/
theorem keyEvents : Obligations.KeyEvents := by
  unfold Obligations.KeyEvents
  intro k s hs
  refine ⟨⟨_, keyPress_of_safe hs k, State.getKey_setKey_same s k true, (setKey_frame s k true).among_singleton⟩,
    _, keyRelease_of_safe hs k, getKey_releaseKey k s, ?_⟩
  split
  · next h =>
    refine ⟨?_, ?_, (releaseKey_frame k s).mono fun p hp => by simpa [Part.among] using hp⟩ <;>
      rw [releaseKey_of_waiting h.1 h.2]
  · next h =>
    rw [releaseKey_of_idle h]
    exact (setKey_frame s k false).among_singleton

/-- Settles O55: the tick is an update of the two timers alone. -/
theorem tickDecrementsBothTimers : Obligations.TickDecrementsBothTimers := by
  unfold Obligations.TickDecrementsBothTimers
  intro s hs
  exact ⟨_, whenEnabled_safe hs _, decrementTimer_toNat s.dt, decrementTimer_toNat s.st,
    (withTimers_frame s _ _).among_pair⟩

end

section
/-! Reset and program load (spec 70_reset_and_hazards R310-R316). -/

namespace Sys2Proof.Machine

section
variable {s : State}

theorem getV_resetBlock (s : State) (x : Reg) : (resetBlock s).getV x = 0x00#8 := by
  simp [resetBlock, State.resetWith, State.getV, Vector.get_eq_getElem, resetV]

theorem getKey_resetBlock (s : State) (k : Key) : (resetBlock s).getKey k = false := by
  simp [resetBlock, State.resetWith, State.getKey, Vector.get_eq_getElem, resetKey]

/-- R311, R314: memory after reset is zero but for the font. -/
theorem readByte_resetBlock (s : State) (a : Nat) :
    (resetBlock s).readByte a =
      if s.cfg.admitGkOps = true ∧ s.cfg.fontBase.val ≤ a ∧ a < s.cfg.fontBase.val + 80
      then font.getD (a - s.cfg.fontBase.val) 0#8 else 0#8 := by
  rw [List.getD_eq_getElem?_getD]
  rfl

theorem loadProgram_of_fits {image : List Byte} (hs : s.stepped = false) (h : image.length ≤ progMax) :
    loadProgram image s = .next (s.writeBytes progBase image) := by
  simp [loadProgram, loadFits, hs, h]

theorem loadProgram_of_oversized {image : List Byte} (hs : s.stepped = false) (h : progMax < image.length) :
    loadProgram image s = .next s := by
  simp [loadProgram, loadFits, hs, Nat.not_le.mpr h]

theorem loadProgram_of_stepped (image : List Byte) (hs : s.stepped = true) :
    loadProgram image s = .refused .loadAfterFirstStep := by
  simp [loadProgram, hs]

end

end Sys2Proof.Machine
end

section
open Sys2Proof Sys2Proof.Machine

/-- Settles O56: every field of the reset state, and the font read off. -/
theorem resetValues : Obligations.ResetValues := by
  unfold Obligations.ResetValues
  refine ⟨⟨rfl, rfl⟩, fun s => ⟨resetBlock s, rfl, rfl, getPixel_clearFb, fun x => ?_, rfl, rfl, rfl, rfl, rfl,
    fun a _ => readByte_resetBlock s a, getKey_resetBlock s, rfl, rfl, rfl, rfl, rfl⟩⟩
  rw [getV_resetBlock]
  rfl

/-- Settles O57: reset keeps the three fields that its result depends on. -/
theorem resetIsIdempotent : Obligations.ResetIsIdempotent := by
  unfold Obligations.ResetIsIdempotent
  refine ⟨fun s t u ht hu => ?_, fun s s' hcfg hmark hdraws => ?_⟩
  · cases ht
    cases hu
    rfl
  · rw [resetBlock, resetBlock, hcfg, hmark, hdraws]

/-- Settles O58: one clause for each branch of the load. -/
theorem programLoad : Obligations.ProgramLoad := by
  unfold Obligations.ProgramLoad
  intro image s
  refine ⟨fun hs hle => ?_, loadProgram_of_oversized, loadProgram_of_stepped image⟩
  exact ⟨_, loadProgram_of_fits hs hle, fun j hj => State.readByte_writeBytes_inside s progBase image hj,
    writeBytes_frame s progBase image⟩

end
